-- ==== Sys2Proof/Word.lean ====
section
/-! DEFINITION. The word types of DESCORE: every value is an unsigned integer of a stated width
(`00_scope.md` section 5.1), and the spec shifts, masks and permutes each of these. -/

namespace Sys2Proof

/-- A u64: a register, a block, an IV, a key word, a command word (R3, R11). -/
abbrev Word := BitVec 64

/-- One byte of a message, a key or an IV (R31). -/
abbrev Byte := BitVec 8

/-- A u32: a half of a block (R72). -/
abbrev Half := BitVec 32

/-- A u28: a half `C` or `D` of the key schedule (R62). -/
abbrev KeyHalf := BitVec 28

/-- A u48: a round subkey (R60). -/
abbrev RoundKey := BitVec 48

end Sys2Proof
end

