-- ==== Sys2Proof/Syntax.lean ====
section
/-! DEFINITION. The nine commands of DESCMD-1 as data (`30_encoding.md` rule R49, `44_commands.md` rule R110).
A command has no register and no address field: its operands stand in fixed registers (R45, R52). -/

namespace Sys2Proof

/-- A command, one constructor for each row of the opcode table. -/
inductive Instr where
  /-- NOP (R112). -/
  | nop
  /-- LDKEY (R111) with the field `KW` of R47, the number of key words of the raw key. -/
  | ldkey (kw : Nat)
  /-- CLRKEY (R113). -/
  | clrkey
  /-- ECBDEC (R114). -/
  | ecbdec
  /-- ECBENC (R115). -/
  | ecbenc
  /-- CBCDEC (R116). -/
  | cbcdec
  /-- CBCENC (R117). -/
  | cbcenc
  /-- CLRERR (R118). -/
  | clrerr
  /-- SRST (R119). -/
  | srst
  deriving DecidableEq, Repr

end Sys2Proof
end

