-- ==== Sys2Proof/WellFormed.lean ====
section
/-! DEFINITION. Which commands have an encoding: the one field of the command set, `KW`, is a u4
(`30_encoding.md` rule R47). All sixteen values are well-formed; which of them succeed is the command's
own check (R111). -/

namespace Sys2Proof

/-- Every field of the command fits the bits the encoding gives it (R45, R47). -/
def Instr.wf : Instr → Bool
  | .ldkey kw => decide (kw < 16)
  | .nop | .clrkey | .ecbdec | .ecbenc | .cbcdec | .cbcenc | .clrerr | .srst => true

end Sys2Proof
end

