-- ==== Sys2Proof/Decode.lean ====
section
/-! DEFINITION. Decoding and encoding of command words (`30_encoding.md` rules R45 to R51). The command word
is one whole u64, numbered from its least significant bit (R4 (a), R45): no byte order enters (log 12). -/

namespace Sys2Proof

/-- Why a command word is illegal, the three causes of R51 and R150. Each raises ILLCMD and nothing else;
safe, since the spec gives the illegal word that one effect. -/
inductive DecodeError where
  /-- A bit of `RSV`, bits 63:8, is not 0. -/
  | reservedBits
  /-- `OP` is 0x6 to 0xF. -/
  | undefinedOp
  /-- `ARG` is not 0 where it must be, or `ARG[3:2]` is not 0 in format M. -/
  | badArg
  deriving DecidableEq, Repr

/-- Bits 7:4 of the command word, `OP` (R45). -/
def opField (w : Word) : BitVec 4 := w.extractLsb' 4 4

/-- Bits 3:0 of the command word, `ARG` (R45). -/
def argField (w : Word) : BitVec 4 := w.extractLsb' 0 4

/-- Format Z (R46): the argument must be 0. -/
def decodeZ (i : Instr) (arg : BitVec 4) : Except DecodeError Instr :=
  if arg = 0 then .ok i else .error .badArg

/-- Format M (R48): `ARG[3:2]` must be 0, `ARG[1]` is `CHN` and `ARG[0]` is `DIR`. -/
def decodeM (arg : BitVec 4) : Except DecodeError Instr :=
  if arg.extractLsb' 2 2 ≠ 0 then .error .badArg
  else if arg = 0 then .ok .ecbdec
  else if arg = 1 then .ok .ecbenc
  else if arg = 2 then .ok .cbcdec
  else .ok .cbcenc

/-- The command that `OP` and `ARG` select, once `RSV` is 0 (R50). -/
def decodeFields (op arg : BitVec 4) : Except DecodeError Instr :=
  if op = 0x0 then decodeZ .nop arg
  else if op = 0x1 then .ok (.ldkey arg.toNat)
  else if op = 0x2 then decodeZ .clrkey arg
  else if op = 0x3 then decodeM arg
  else if op = 0x4 then decodeZ .clrerr arg
  else if op = 0x5 then decodeZ .srst arg
  else .error .undefinedOp

/-- `Decode(w)` of R50. -/
def decode (w : Word) : Except DecodeError Instr :=
  if w >>> 8 ≠ 0 then .error .reservedBits else decodeFields (opField w) (argField w)

/-- The command word of a well-formed command (R49). -/
def encode : Instr → Word
  | .nop => 0x00
  | .ldkey kw => 0x10 + BitVec.ofNat 64 kw
  | .clrkey => 0x20
  | .ecbdec => 0x30
  | .ecbenc => 0x31
  | .cbcdec => 0x32
  | .cbcenc => 0x33
  | .clrerr => 0x40
  | .srst => 0x50

/-- What the decoder reads from an opcode-table word `w` of `nbits` bits, all bits above them 0. -/
def decodeTableWord (nbits w : Nat) : Option Instr :=
  (decode (BitVec.ofNat 64 (w % 2 ^ nbits))).toOption

end Sys2Proof
end

