-- ==== Sys2Proof/Machine/Bits.lean ====
section
/-! DEFINITION. The bit operations of `00_scope.md` section 5 (`dbit`, `Permute`, `rotl28`) and the byte
order of `20_memory.md` rules R31 to R33 (`be64`, `bytes8`, the blocks of a message). -/

namespace Sys2Proof.Machine

/-- `dbit(v, n, i)` of R4 (b), for `1 ≤ i ≤ n`: DES numbering, bit 1 the most significant. -/
def dbit {n : Nat} (v : BitVec n) (i : Nat) : Bool := v.getLsbD (n - i)

/-- `Permute(v, n, T)` of R5, a `u m` for a table `T` of `m` entries: output bit `j` (DES numbering) is
input bit `T[j]`. The sum of R5's formula, taken from the most significant term down. -/
def permute {n : Nat} (m : Nat) (v : BitVec n) (t : List Nat) : BitVec m :=
  BitVec.ofNat m (t.foldl (fun w i => 2 * w + (dbit v i).toNat) 0)

/-- `rotl28(x, k)` of R6: the bits shifted out at the top enter again at the bottom. -/
def rotl28 (x : KeyHalf) (k : Nat) : KeyHalf := (x <<< k) ||| (x >>> (28 - k))

/-- `be64(b)` of R31, for eight bytes in the order they stand in memory: the first is the most significant. -/
def be64 (b : List Byte) : Word :=
  b.foldl (fun w x => (w <<< 8) ||| x.setWidth 64) 0

/-- `bytes8(v)[i]` of R31: byte `i` of the big-endian form of `v`. -/
def byteOf (v : Word) (i : Nat) : Byte := (v >>> (56 - 8 * i)).setWidth 8

/-- `bytes8(v)` of R31. -/
def bytes8 (v : Word) : List Byte := (List.range 8).map (byteOf v)

/-- The `n` blocks `B_1 .. B_n` of a message of `8 * n` bytes (R33). -/
def blocksOf : Nat → List Byte → List Word
  | 0, _ => []
  | n + 1, msg => be64 (msg.take 8) :: blocksOf n (msg.drop 8)

/-- The message that a sequence of output blocks is: the concatenation of their bytes (R33). -/
def bytesOf (blocks : List Word) : List Byte := blocks.flatMap bytes8

end Sys2Proof.Machine
end

