-- ==== Sys2Proof/Machine/KeySchedule.lean ====
section
/-! DEFINITION. The key schedule `KS` of `40_key_schedule.md`: permuted choice 1, rotation, permuted
choice 2. The contents of PC-1 and PC-2 are the spec's (log 5). -/

namespace Sys2Proof.Machine

/-- PC-1, the 56 entries of R61. -/
def pc1 : List Nat :=
  [57, 49, 41, 33, 25, 17,  9,
    1, 58, 50, 42, 34, 26, 18,
   10,  2, 59, 51, 43, 35, 27,
   19, 11,  3, 60, 52, 44, 36] ++
  [63, 55, 47, 39, 31, 23, 15,
    7, 62, 54, 46, 38, 30, 22,
   14,  6, 61, 53, 45, 37, 29,
   21, 13,  5, 28, 20, 12,  4]

/-- PC-2, the 48 entries of R65. -/
def pc2 : List Nat :=
  [14, 17, 11, 24,  1,  5,
    3, 28, 15,  6, 21, 10,
   23, 19, 12,  4, 26,  8,
   16,  7, 27, 20, 13,  2] ++
  [41, 52, 31, 37, 47, 55,
   30, 40, 51, 45, 33, 48,
   44, 49, 39, 56, 34, 53,
   46, 42, 50, 36, 29, 32]

/-- `ROT[1] .. ROT[16]` of R63: 1 for rounds 1, 2, 9 and 16, else 2. -/
def rot : List Nat := [1, 1, 2, 2, 2, 2, 2, 2, 1, 2, 2, 2, 2, 2, 2, 1]

/-- A round key set `RK[s][1..16]` in key-schedule order (R20, R70). -/
abbrev RoundKeySet := Vector RoundKey 16

/-- `C[0]` of R62: the first 28 bits of the PC-1 output. -/
def keyHalfC (k : Word) : KeyHalf := (permute 56 k pc1).extractLsb' 28 28

/-- `D[0]` of R62: the last 28 bits of the PC-1 output. -/
def keyHalfD (k : Word) : KeyHalf := (permute 56 k pc1).extractLsb' 0 28

/-- The subkey of one round from that round's halves (R65). -/
def subkey (c d : KeyHalf) : RoundKey := permute 48 (c ++ d) pc2

/-- The rounds of R64 and R65: each rotates the halves the round before left, then selects its subkey. -/
def subkeys : List Nat → KeyHalf → KeyHalf → List RoundKey
  | [], _, _ => []
  | r :: rs, c, d => subkey (rotl28 c r) (rotl28 d r) :: subkeys rs (rotl28 c r) (rotl28 d r)

theorem subkeys_length (rs : List Nat) (c d : KeyHalf) : (subkeys rs c d).length = rs.length := by
  induction rs generalizing c d with
  | nil => rfl
  | cons r rs ih => simp [subkeys, ih]

/-- `KS(k)` of R66: the sixteen round subkeys of one key word. -/
def ks (k : Word) : RoundKeySet :=
  ⟨(subkeys rot (keyHalfC k) (keyHalfD k)).toArray, by simp [subkeys_length, rot]⟩

end Sys2Proof.Machine
end

