-- ==== Sys2Proof/Machine/BlockTransform.lean ====
section
/-! DEFINITION. The block transform of `41_block_transform.md`: IP, sixteen Feistel rounds (expansion E,
eight S-boxes, permutation P), swap, FP. The contents of the tables are the spec's (log 5). -/

namespace Sys2Proof.Machine

/-- IP, the 64 entries of R71. -/
def ip : List Nat :=
  [58, 50, 42, 34, 26, 18, 10,  2,
   60, 52, 44, 36, 28, 20, 12,  4,
   62, 54, 46, 38, 30, 22, 14,  6,
   64, 56, 48, 40, 32, 24, 16,  8] ++
  [57, 49, 41, 33, 25, 17,  9,  1,
   59, 51, 43, 35, 27, 19, 11,  3,
   61, 53, 45, 37, 29, 21, 13,  5,
   63, 55, 47, 39, 31, 23, 15,  7]

/-- E, the 48 entries of R73. -/
def expansion : List Nat :=
  [32,  1,  2,  3,  4,  5,
    4,  5,  6,  7,  8,  9,
    8,  9, 10, 11, 12, 13,
   12, 13, 14, 15, 16, 17] ++
  [16, 17, 18, 19, 20, 21,
   20, 21, 22, 23, 24, 25,
   24, 25, 26, 27, 28, 29,
   28, 29, 30, 31, 32,  1]

/-- P, the 32 entries of R79. -/
def roundPerm : List Nat :=
  [16,  7, 20, 21, 29, 12, 28, 17,
    1, 15, 23, 26,  5, 18, 31, 10] ++
  [ 2,  8, 24, 14, 32, 27,  3,  9,
   19, 13, 30,  6, 22, 11,  4, 25]

/-- FP, the 64 entries of R83. -/
def fp : List Nat :=
  [40,  8, 48, 16, 56, 24, 64, 32,
   39,  7, 47, 15, 55, 23, 63, 31,
   38,  6, 46, 14, 54, 22, 62, 30,
   37,  5, 45, 13, 53, 21, 61, 29] ++
  [36,  4, 44, 12, 52, 20, 60, 28,
   35,  3, 43, 11, 51, 19, 59, 27,
   34,  2, 42, 10, 50, 18, 58, 26,
   33,  1, 41,  9, 49, 17, 57, 25]

/-- S1 of R77, rows 0 to 3. -/
def s1 : List (List Nat) :=
  [[14,  4, 13,  1,  2, 15, 11,  8,  3, 10,  6, 12,  5,  9,  0,  7],
   [ 0, 15,  7,  4, 14,  2, 13,  1, 10,  6, 12, 11,  9,  5,  3,  8],
   [ 4,  1, 14,  8, 13,  6,  2, 11, 15, 12,  9,  7,  3, 10,  5,  0],
   [15, 12,  8,  2,  4,  9,  1,  7,  5, 11,  3, 14, 10,  0,  6, 13]]

/-- S2 of R77, rows 0 to 3. -/
def s2 : List (List Nat) :=
  [[15,  1,  8, 14,  6, 11,  3,  4,  9,  7,  2, 13, 12,  0,  5, 10],
   [ 3, 13,  4,  7, 15,  2,  8, 14, 12,  0,  1, 10,  6,  9, 11,  5],
   [ 0, 14,  7, 11, 10,  4, 13,  1,  5,  8, 12,  6,  9,  3,  2, 15],
   [13,  8, 10,  1,  3, 15,  4,  2, 11,  6,  7, 12,  0,  5, 14,  9]]

/-- S3 of R77, rows 0 to 3. -/
def s3 : List (List Nat) :=
  [[10,  0,  9, 14,  6,  3, 15,  5,  1, 13, 12,  7, 11,  4,  2,  8],
   [13,  7,  0,  9,  3,  4,  6, 10,  2,  8,  5, 14, 12, 11, 15,  1],
   [13,  6,  4,  9,  8, 15,  3,  0, 11,  1,  2, 12,  5, 10, 14,  7],
   [ 1, 10, 13,  0,  6,  9,  8,  7,  4, 15, 14,  3, 11,  5,  2, 12]]

/-- S4 of R77, rows 0 to 3. -/
def s4 : List (List Nat) :=
  [[ 7, 13, 14,  3,  0,  6,  9, 10,  1,  2,  8,  5, 11, 12,  4, 15],
   [13,  8, 11,  5,  6, 15,  0,  3,  4,  7,  2, 12,  1, 10, 14,  9],
   [10,  6,  9,  0, 12, 11,  7, 13, 15,  1,  3, 14,  5,  2,  8,  4],
   [ 3, 15,  0,  6, 10,  1, 13,  8,  9,  4,  5, 11, 12,  7,  2, 14]]

/-- S5 of R77, rows 0 to 3. -/
def s5 : List (List Nat) :=
  [[ 2, 12,  4,  1,  7, 10, 11,  6,  8,  5,  3, 15, 13,  0, 14,  9],
   [14, 11,  2, 12,  4,  7, 13,  1,  5,  0, 15, 10,  3,  9,  8,  6],
   [ 4,  2,  1, 11, 10, 13,  7,  8, 15,  9, 12,  5,  6,  3,  0, 14],
   [11,  8, 12,  7,  1, 14,  2, 13,  6, 15,  0,  9, 10,  4,  5,  3]]

/-- S6 of R77, rows 0 to 3. -/
def s6 : List (List Nat) :=
  [[12,  1, 10, 15,  9,  2,  6,  8,  0, 13,  3,  4, 14,  7,  5, 11],
   [10, 15,  4,  2,  7, 12,  9,  5,  6,  1, 13, 14,  0, 11,  3,  8],
   [ 9, 14, 15,  5,  2,  8, 12,  3,  7,  0,  4, 10,  1, 13, 11,  6],
   [ 4,  3,  2, 12,  9,  5, 15, 10, 11, 14,  1,  7,  6,  0,  8, 13]]

/-- S7 of R77, rows 0 to 3. -/
def s7 : List (List Nat) :=
  [[ 4, 11,  2, 14, 15,  0,  8, 13,  3, 12,  9,  7,  5, 10,  6,  1],
   [13,  0, 11,  7,  4,  9,  1, 10, 14,  3,  5, 12,  2, 15,  8,  6],
   [ 1,  4, 11, 13, 12,  3,  7, 14, 10, 15,  6,  8,  0,  5,  9,  2],
   [ 6, 11, 13,  8,  1,  4, 10,  7,  9,  5,  0, 15, 14,  2,  3, 12]]

/-- S8 of R77, rows 0 to 3. -/
def s8 : List (List Nat) :=
  [[13,  2,  8,  4,  6, 15, 11,  1, 10,  9,  3, 14,  5,  0, 12,  7],
   [ 1, 15, 13,  8, 10,  3,  7,  4, 12,  5,  6, 11,  0, 14,  9,  2],
   [ 7, 11,  4,  1,  9, 12, 14,  2,  0,  6, 10, 13, 15,  3,  5,  8],
   [ 2,  1, 14,  7,  4, 10,  8, 13, 15, 12,  9,  0,  3,  5,  6, 11]]

/-- The eight S-boxes in order, `S1` first (R75). -/
def sboxes : List (List (List Nat)) := [s1, s2, s3, s4, s5, s6, s7, s8]

/-- The row of R76: the outer bits `b1 b6` of the 6-bit group. -/
def sboxRow (b : BitVec 6) : Nat := 2 * (b.getLsbD 5).toNat + (b.getLsbD 0).toNat

/-- The column of R76: the inner bits `b2 b3 b4 b5`. -/
def sboxCol (b : BitVec 6) : Nat := (b.extractLsb' 1 4).toNat

/-- `Si(B)` of R76: the entry of table `Si` at the row and column that the group `B` addresses. -/
def sbox (t : List (List Nat)) (b : BitVec 6) : BitVec 4 :=
  BitVec.ofNat 4 ((t.getD (sboxRow b) []).getD (sboxCol b) 0)

/-- The group `B(i+1)` of R75, `i` in 0..7: six bits of `X`, `B1` the most significant. -/
def sboxGroup (x : BitVec 48) (i : Nat) : BitVec 6 := (x >>> (42 - 6 * i)).setWidth 6

/-- `Sout` of R78: the eight outputs joined, that of `S1` the most significant. -/
def sboxOut (x : BitVec 48) : Half :=
  (List.range 8).foldl
    (fun out i => (out <<< 4) ||| (sbox (sboxes.getD i []) (sboxGroup x i)).setWidth 32) 0

/-- The round function `F(R, Kn)` of R80. -/
def feistel (r : Half) (kn : RoundKey) : Half :=
  permute 32 (sboxOut (permute 48 r expansion ^^^ kn)) roundPerm

/-- One round of R81 with subkey `kn`: `(L, R)` becomes `(R, L ^ F(R, kn))`. -/
def feistelRound (lr : Half × Half) (kn : RoundKey) : Half × Half :=
  (lr.2, lr.1 ^^^ feistel lr.2 kn)

/-- The initial permutation and the split into `L[0]` and `R[0]` (R71, R72). -/
def splitIP (x : Word) : Half × Half :=
  ((permute 64 x ip).extractLsb' 32 32, (permute 64 x ip).extractLsb' 0 32)

/-- The join `R || L` and the final permutation (R82, R83). -/
def joinFP (lr : Half × Half) : Word := permute 64 (lr.2 ++ lr.1) fp

/-- `BTcore(x, Q)` of R84: the subkeys `q` in the order given, one round for each. -/
def btCore (x : Word) (q : List RoundKey) : Word := joinFP (q.foldl feistelRound (splitIP x))

/-- The direction flag of R70: decrypt = 0, encrypt = 1. -/
inductive Dir where
  | decrypt
  | encrypt
  deriving DecidableEq, Repr

/-- `1 - flag` of R94. -/
def Dir.flip : Dir → Dir
  | .decrypt => .encrypt
  | .encrypt => .decrypt

/-- `BT(x, RK, dir)` of R85: the subkeys forward to encrypt, backward to decrypt. -/
def bt (x : Word) (rk : RoundKeySet) : Dir → Word
  | .encrypt => btCore x rk.toList
  | .decrypt => btCore x rk.toList.reverse

end Sys2Proof.Machine
end

