-- ==== Sys2Proof/Machine/State.lean ====
section
/-! DEFINITION. The state of DESCORE (`10_state.md`), plain data, and the reset state (R22, R170). -/

namespace Sys2Proof.Machine

/-- One item or three, never none and never two: the shape of the key guard's result and of the
round-key store (R91, R93). -/
inductive OneOrThree (α : Type) where
  | one (a : α)
  | three (a b c : α)
  deriving DecidableEq, Repr

/-- The error code `ERR` (R18, R150); the values 5 to 15 never occur. -/
inductive Err where
  /-- 0: no error recorded. -/
  | noError
  /-- 1: an illegal command word was written to CMD. -/
  | illcmd
  /-- 2: LDKEY with `KW` not 1, 2 or 3. -/
  | invkey
  /-- 3: a processing command with no key loaded. -/
  | nokey
  /-- 4: an illegal register access. -/
  | illreg
  deriving DecidableEq, Repr

/-- The eight architectural registers (R11). -/
inductive Reg where
  | cmd | status | key0 | key1 | key2 | din | dout | iv
  deriving DecidableEq, Repr

/-- What the outside world can do to the block in one atomic step (R10, R36, R37, R170). -/
inductive HostAccess where
  /-- `HostRead(n)`. -/
  | read (n : Nat)
  /-- `HostWrite(n, v)`. -/
  | write (n : Nat) (v : Word)
  /-- The platform's hardware reset, `Reset`. -/
  | reset
  deriving DecidableEq, Repr

/-- The state: the registers and the hidden store of `10_state.md` sections 2, 3 and 5, and the model's
own view of the port, the accesses still to come and the values read so far (log 1). STATUS is a view of
`store` and `err` (R17) and CMD stores nothing (R16). -/
structure State where
  /-- KEY0, register 2 (R12). -/
  key0 : Word
  /-- KEY1, register 3 (R12). -/
  key1 : Word
  /-- KEY2, register 4 (R12). -/
  key2 : Word
  /-- DIN, register 5 (R13). -/
  din : Word
  /-- DOUT, register 6 (R14). -/
  dout : Word
  /-- IV, register 7 (R15). -/
  iv : Word
  /-- The round-key store, `NSETS` with `RK` (R20): none is `NSETS = 0`, and then no round key has a value. -/
  store : Option (OneOrThree RoundKeySet)
  /-- `ERR` (R18). -/
  err : Err
  /-- The model's own: the host accesses still to come, the next one first (R10, log 1). -/
  pending : List HostAccess
  /-- The model's own: the values the run's `HostRead`s returned, the oldest first (R10, log 1). -/
  returned : List Word
  deriving DecidableEq, Repr

/-- The state after reset (R22): all zero, no key, no error; and no access has been made or is to come. -/
def State.reset : State where
  key0 := 0
  key1 := 0
  key2 := 0
  din := 0
  dout := 0
  iv := 0
  store := none
  err := .noError
  pending := []
  returned := []

/-- Why the machine stops with a fault: it never does ("every access has exactly one outcome in every
state", R10), so there is no reason to name, and no meaning can answer with a fault. Safe. -/
inductive Fault where
  deriving DecidableEq, Repr

/-- Why an instruction has no meaning in the model. -/
inductive Refusal where
  /-- An arm of `exec` whose instruction is not modelled yet. Every instruction is modelled, so nothing
  raises it. Safe. -/
  | notModelled (mnemonic : String)
  deriving DecidableEq, Repr

end Sys2Proof.Machine
end

