-- ==== Sys2Proof/Machine/Cascade.lean ====
section
/-! DEFINITION. The key guard and the cascade of `42_key_guard_cascade.md`: pure functions. -/

namespace Sys2Proof.Machine

/-- How many items: `m` of R93 and R94, 1 or 3. -/
def OneOrThree.size {α : Type} : OneOrThree α → Nat
  | .one _ => 1
  | .three _ _ _ => 3

/-- The items in order, stage 0 first (R91). -/
def OneOrThree.toList {α : Type} : OneOrThree α → List α
  | .one a => [a]
  | .three a b c => [a, b, c]

/-- The same shape with `f` applied to each item. -/
def OneOrThree.map {α β : Type} (f : α → β) : OneOrThree α → OneOrThree β
  | .one a => .one (f a)
  | .three a b c => .three (f a) (f b) (f c)

/-- A key word that the raw key of `kw` words has only from `least` words on: `absent` below (R90). -/
def presentFrom (least kw : Nat) (k : Word) : Option Word := if kw < least then none else some k

/-- `KeyGuard(KW, k0, k1, k2)` of R91, its four rules in order. Equality is of all 64 bits, parity
included, and `absent` equals `absent` alone (R90). -/
def keyGuard (kw : Nat) (k0 k1 k2 : Word) : OneOrThree Word :=
  if presentFrom 2 kw k1 = presentFrom 3 kw k2 then .one k0
  else if presentFrom 2 kw k1 = some k0 then .one ((presentFrom 3 kw k2).getD k0)
  else .three k0 k1 ((presentFrom 3 kw k2).getD k0)

/-- The round key sets of the selected key words (R93): `RK[s] = KS(w_s)`. -/
def loadSets (ws : OneOrThree Word) : OneOrThree RoundKeySet := ws.map ks

/-- The stages in the order given, the flag flipped after each (the loop of R94). -/
def alternate {α : Type} : Dir → List α → List (α × Dir)
  | _, [] => []
  | flag, s :: rest => (s, flag) :: alternate flag.flip rest

/-- `StagePlan` of R94 over the stages themselves; over the indices `0 .. m-1` it is the rule's
`StagePlan(m, dir)`. Decrypting takes the stages backward; the first flag is the overall direction. -/
def stagePlan {α : Type} (stages : List α) : Dir → List (α × Dir)
  | .encrypt => alternate .encrypt stages
  | .decrypt => alternate .decrypt stages.reverse

/-- `Cascade(x, RK, m, dir)` of R95: each stage's output is the next stage's input. -/
def cascade (x : Word) (sets : OneOrThree RoundKeySet) (dir : Dir) : Word :=
  (stagePlan sets.toList dir).foldl (fun y stage => bt y stage.1 stage.2) x

end Sys2Proof.Machine
end

