-- ==== Sys2Proof/Machine/Operands.lean ====
section
/-! DEFINITION. The operand forms of the commands (`30_encoding.md` rule R52): every operand stands in a
fixed register; only LDKEY's `KW` selects among them. -/

namespace Sys2Proof.Machine

/-- The numbers of key words a raw key may have (R47, R111): 8, 16 or 24 bytes. -/
def legalKeyLength (kw : Nat) : Bool := kw == 1 || kw == 2 || kw == 3

/-- The operand of LDKEY: the key words the key guard selects from KEY0 and, by `KW`, KEY1 and KEY2 (R111). -/
def keyOperand (kw : Nat) (s : State) : OneOrThree Word := keyGuard kw s.key0 s.key1 s.key2

/-- The operand of the ECB commands and of CBCDEC: the block in DIN (R101, R103). -/
def blockOperand (s : State) : Word := s.din

/-- The operand of CBCENC: the block in DIN with the running value mixed in (R102). -/
def chainedOperand (s : State) : Word := s.din ^^^ s.iv

end Sys2Proof.Machine
end

