-- ==== Sys2Proof/Machine/Ops.lean ====
section
/-! DEFINITION. The shared operations over the state: one named update for each field, the register
numbers, raising an error (`60_exceptions.md` R151) and leaving the error state (R153), the fail-stop
gate (R152), reset (R170). There is no memory (R30, log 11). -/

namespace Sys2Proof.Machine

/-- `reg[KEY0] <- v`. -/
def State.setKey0 (s : State) (v : Word) : State := { s with key0 := v }

/-- `reg[KEY1] <- v`. -/
def State.setKey1 (s : State) (v : Word) : State := { s with key1 := v }

/-- `reg[KEY2] <- v`. -/
def State.setKey2 (s : State) (v : Word) : State := { s with key2 := v }

/-- `reg[DIN] <- v`. -/
def State.setDin (s : State) (v : Word) : State := { s with din := v }

/-- `reg[DOUT] <- v`. -/
def State.setDout (s : State) (v : Word) : State := { s with dout := v }

/-- `reg[IV] <- v`. -/
def State.setIv (s : State) (v : Word) : State := { s with iv := v }

/-- `NSETS` and `RK` replaced together (R111, R113). -/
def State.setStore (s : State) (sets : Option (OneOrThree RoundKeySet)) : State := { s with store := sets }

/-- `ERR <- e`. -/
def State.setErr (s : State) (e : Err) : State := { s with err := e }

/-- The accesses still to come replaced (log 1). -/
def State.setPending (s : State) (as : List HostAccess) : State := { s with pending := as }

/-- One more value read by the host (log 1). -/
def State.addReturned (s : State) (v : Word) : State := { s with returned := s.returned ++ [v] }

/-- The number of a register (R11). -/
def Reg.number : Reg → Nat
  | .cmd => 0
  | .status => 1
  | .key0 => 2
  | .key1 => 3
  | .key2 => 4
  | .din => 5
  | .dout => 6
  | .iv => 7

/-- The register a number selects; 8 and above select nothing (R11). -/
def Reg.ofNumber : Nat → Option Reg
  | 0 => some .cmd
  | 1 => some .status
  | 2 => some .key0
  | 3 => some .key1
  | 4 => some .key2
  | 5 => some .din
  | 6 => some .dout
  | 7 => some .iv
  | _ + 8 => none

/-- `raise e` of R151, the one operation by which an error is taken: the first error is recorded, a later
one is not, and nothing else is written. No state is saved and control goes nowhere (R156). -/
def raise (e : Err) (s : State) : State := if s.err = .noError then s.setErr e else s

/-- The way out of the error state that restores nothing, because nothing was saved (R153): `ERR <- 0`. -/
def clearError (s : State) : State := s.setErr .noError

/-- The fail-stop gate of R152: while `ERR` is not 0 the access does nothing at all. -/
def unlessFailStop (act : State → State) (s : State) : State := if s.err = .noError then act s else s

/-- The precondition of a processing command (R114 to R117): with no key loaded it raises NOKEY, else it
acts under the round key sets the store holds. -/
def withKey (act : OneOrThree RoundKeySet → State → State) (s : State) : State :=
  match s.store with
  | none => raise .nokey s
  | some sets => act sets s

/-- Reset (R22, R170): every piece of architectural state at its reset value. The accesses still to come and
the values already read are the outside's, not the block's, and stay (log 9). -/
def resetBlock (s : State) : State :=
  { State.reset with pending := s.pending, returned := s.returned }

end Sys2Proof.Machine
end

