-- ==== Sys2Proof/Machine/KeyCommands.lean ====
section
/-! DEFINITION. The key commands of `44_commands.md` section 2: LDKEY and CLRKEY. Each meaning says what
the command does in every state, fail-stop included (R152, log 4). -/

namespace Sys2Proof.Machine

/-- The effect of LDKEY outside fail-stop (R111). -/
def loadKey (kw : Nat) (s : State) : State :=
  if legalKeyLength kw then s.setStore (some (loadSets (keyOperand kw s))) else raise .invkey s

/-- LDKEY (R111): load a raw key of `kw` key words. -/
def execLdkey (kw : Nat) (s : State) : Host.Outcome State Fault Refusal :=
  .next (unlessFailStop (loadKey kw) s)

/-- The effect of CLRKEY outside fail-stop (R113). -/
def forgetKey (s : State) : State := (((s.setKey0 0).setKey1 0).setKey2 0).setStore none

/-- CLRKEY (R113): forget the key. -/
def execClrkey (s : State) : Host.Outcome State Fault Refusal := .next (unlessFailStop forgetKey s)

end Sys2Proof.Machine
end

