-- ==== Sys2Proof/Machine/Processing.lean ====
section
/-! DEFINITION. The processing commands of `44_commands.md` section 3, over the per-block steps of
`43_mode_driver.md`. Each meaning says what the command does in every state: nothing in fail-stop (R152,
log 4), NOKEY with no key loaded, else its step. -/

namespace Sys2Proof.Machine

/-- `EcbStep(dir)` of R101. -/
def ecbStep (dir : Dir) (sets : OneOrThree RoundKeySet) (s : State) : State :=
  s.setDout (cascade (blockOperand s) sets dir)

/-- `CbcEncStep()` of R102: DOUT and IV both become the ciphertext block produced. -/
def cbcEncStep (sets : OneOrThree RoundKeySet) (s : State) : State :=
  (s.setDout (cascade (chainedOperand s) sets .encrypt)).setIv (cascade (chainedOperand s) sets .encrypt)

/-- `CbcDecStep()` of R103: the output is mixed with the old IV, and IV becomes the block consumed. -/
def cbcDecStep (sets : OneOrThree RoundKeySet) (s : State) : State :=
  (s.setDout (cascade (blockOperand s) sets .decrypt ^^^ s.iv)).setIv (blockOperand s)

/-- ECBDEC (R114): decrypt one block, no chaining. -/
def execEcbdec (s : State) : Host.Outcome State Fault Refusal :=
  .next (unlessFailStop (withKey (ecbStep .decrypt)) s)

/-- ECBENC (R115): encrypt one block, no chaining. -/
def execEcbenc (s : State) : Host.Outcome State Fault Refusal :=
  .next (unlessFailStop (withKey (ecbStep .encrypt)) s)

/-- CBCDEC (R116): decrypt one block with chaining. -/
def execCbcdec (s : State) : Host.Outcome State Fault Refusal :=
  .next (unlessFailStop (withKey cbcDecStep) s)

/-- CBCENC (R117): encrypt one block with chaining. -/
def execCbcenc (s : State) : Host.Outcome State Fault Refusal :=
  .next (unlessFailStop (withKey cbcEncStep) s)

end Sys2Proof.Machine
end

