-- ==== Sys2Proof/Machine/System.lean ====
section
/-! DEFINITION. The system commands of `44_commands.md` section 4: NOP, CLRERR and SRST. The last two are
the ones that act in fail-stop (R152). -/

namespace Sys2Proof.Machine

/-- NOP (R112): no state is read or written. -/
def execNop (s : State) : Host.Outcome State Fault Refusal := .next s

/-- CLRERR (R118): leave fail-stop. It acts whether or not `ERR` is 0. -/
def execClrerr (s : State) : Host.Outcome State Fault Refusal := .next (clearError s)

/-- SRST (R119): the reset state. It acts in fail-stop and out of it. -/
def execSrst (s : State) : Host.Outcome State Fault Refusal := .next (resetBlock s)

end Sys2Proof.Machine
end

