-- ==== Sys2Proof/Machine/Dispatch.lean ====
section
/-! DEFINITION. The dispatch of `44_commands.md` rule R110, one arm for each command. -/

namespace Sys2Proof.Machine

def exec (i : Instr) (s : State) : Host.Outcome State Fault Refusal :=
  match i with
  | .nop => Sys2Proof.Machine.execNop s
  | .ldkey kw => Sys2Proof.Machine.execLdkey kw s
  | .clrkey => Sys2Proof.Machine.execClrkey s
  | .ecbdec => Sys2Proof.Machine.execEcbdec s
  | .ecbenc => Sys2Proof.Machine.execEcbenc s
  | .cbcdec => Sys2Proof.Machine.execCbcdec s
  | .cbcenc => Sys2Proof.Machine.execCbcenc s
  | .clrerr => Sys2Proof.Machine.execClrerr s
  | .srst => Sys2Proof.Machine.execSrst s

end Sys2Proof.Machine
end

