-- ==== Sys2Proof/Machine/Flags.lean ====
section
/-! DEFINITION. The only flags of the hardware, the fields of STATUS (`10_state.md` rule R17): KEYV, TRIPLE
and ERR. None of them is stored a second time: STATUS is computed from the store and the error code. -/

namespace Sys2Proof.Machine

/-- `NSETS` (R20): 0, 1 or 3. -/
def nsets (s : State) : Nat :=
  match s.store with
  | none => 0
  | some sets => sets.size

/-- The code of an error (R150). -/
def Err.code : Err → BitVec 4
  | .noError => 0
  | .illcmd => 1
  | .invkey => 2
  | .nokey => 3
  | .illreg => 4

/-- KEYV, bit 0 of STATUS: `NSETS != 0` (R17). -/
def keyv (s : State) : Bool := nsets s != 0

/-- TRIPLE, bit 1 of STATUS: `NSETS == 3` (R17). -/
def triple (s : State) : Bool := nsets s == 3

/-- STATUS as the host reads it (R17): `zext_64((ERR << 4) | (TRIPLE << 1) | KEYV)`. -/
def status (s : State) : Word :=
  (s.err.code.setWidth 64 <<< 4) ||| ((BitVec.ofBool (triple s)).setWidth 64 <<< 1) |||
    (BitVec.ofBool (keyv s)).setWidth 64

end Sys2Proof.Machine
end

