-- ==== Sys2Proof/Machine/Port.lean ====
section
/-! DEFINITION. The host port: the two access primitives of `20_memory.md` rules R36 and R37, the execution of
a command word (`44_commands.md` rule R110), the hardware reset (`70_reset_and_hazards.md` rule R170). -/

namespace Sys2Proof.Machine

/-- `HostRead(n)` of R36: the value the host gets, and the state after. A read of a write-only or undefined
register returns 0 and raises ILLREG (R38). -/
def hostRead (n : Nat) (s : State) : Word × State :=
  match Reg.ofNumber n with
  | some .status => (status s, s)
  | some .din => (s.din, s)
  | some .dout => (s.dout, s)
  | some .iv => (s.iv, s)
  | some .cmd | some .key0 | some .key1 | some .key2 | none => (0, raise .illreg s)

/-- `Execute(w)` of R110: an illegal command word raises ILLCMD and changes nothing else. -/
def execute (w : Word) (s : State) : Host.Outcome State Fault Refusal :=
  match decode w with
  | .error _ => .next (raise .illcmd s)
  | .ok i => exec i s

/-- `HostWrite(n, v)` of R37: in fail-stop only CLRERR and SRST, as exact words to CMD, have an effect. -/
def hostWrite (n : Nat) (v : Word) (s : State) : Host.Outcome State Fault Refusal :=
  if s.err ≠ .noError then
    if n = 0 ∧ v = 0x40 then execClrerr s
    else if n = 0 ∧ v = 0x50 then execSrst s
    else .next s
  else
    match Reg.ofNumber n with
    | some .cmd => execute v s
    | some .key0 => .next (s.setKey0 v)
    | some .key1 => .next (s.setKey1 v)
    | some .key2 => .next (s.setKey2 v)
    | some .din => .next (s.setDin v)
    | some .iv => .next (s.setIv v)
    | some .status | some .dout | none => .next (raise .illreg s)

/-- One host access, an atomic step of the whole machine (R10, R35). -/
def perform (a : HostAccess) (s : State) : Host.Outcome State Fault Refusal :=
  match a with
  | .read n => .next ((hostRead n s).2.addReturned (hostRead n s).1)
  | .write n v => hostWrite n v s
  | .reset => .next (resetBlock s)

/-- A run: the accesses applied in order, each to the state the one before left (R10, R41). -/
def performAll : List HostAccess → State → Host.Outcome State Fault Refusal
  | [], s => .next s
  | a :: as, s =>
    match perform a s with
    | .next t => performAll as t
    | .fault r => .fault r
    | .refused r => .refused r

/-- The next access of the run is taken from the port and performed; while the host issues none the block
does nothing (R171, log 2). -/
def nextAccess (s : State) : Host.Outcome State Fault Refusal :=
  match s.pending with
  | [] => .next s
  | a :: as => perform a (s.setPending as)

/-- The host's next access is a write of the command word to CMD, before all others still to come (log 3). -/
def presentCommand (w : Word) (s : State) : State := s.setPending (.write 0 w :: s.pending)

end Sys2Proof.Machine
end

