-- ==== Sys2Proof/Machine/Step.lean ====
section
/-! DEFINITION. The step function: one host access (`10_state.md` rule R10: "A model therefore has one step
function, indexed by the host access"). The access comes from the state's list of accesses to come (log 1). -/

namespace Sys2Proof.Machine

/-- One step: the next host access, complete with the command it carries. -/
def step (s : State) : Host.Outcome State Fault Refusal := nextAccess s

/-- `s` with the command word `w` of `nbits` bits as the host's next write to CMD, which the very next step
performs (log 3). -/
def State.withFetchWord (s : State) (nbits w : Nat) : State :=
  presentCommand (BitVec.ofNat 64 (w % 2 ^ nbits)) s

end Sys2Proof.Machine
end

