-- ==== Sys2Proof/Machine/Script.lean ====
section
/-! DEFINITION. The host-script notation of `30_encoding.md` rules R54 and R55 as data: statements, each one
host access, and pseudo-instructions, each a list of statements. -/

namespace Sys2Proof.Machine

/-- How a `wr` or `rd` statement names a register (R54): by name, or by a bare number. -/
inductive RegName where
  | named (r : Reg)
  | bare (n : Nat)
  deriving DecidableEq, Repr

/-- `number(REG)` of R54. -/
def RegName.number : RegName → Nat
  | .named r => r.number
  | .bare n => n

/-- The raw key lengths that `ldkey N` takes (R54). -/
inductive KeyLength where
  | bytes8 | bytes16 | bytes24
  deriving DecidableEq, Repr

/-- `N` of `ldkey N`, in bytes (R54). -/
def KeyLength.bytes : KeyLength → Nat
  | .bytes8 => 8
  | .bytes16 => 16
  | .bytes24 => 24

/-- A statement of the host script (R54). -/
inductive Statement where
  | wr (r : RegName) (v : Word)
  | rd (r : RegName)
  | nop
  | ldkey (n : KeyLength)
  | ldkeyW (k : Fin 16)
  | clrkey
  | ecbdec
  | ecbenc
  | cbcdec
  | cbcenc
  | clrerr
  | srst
  | cmd (v : Word)
  deriving DecidableEq, Repr

/-- The host access a statement stands for (R54). -/
def Statement.access : Statement → HostAccess
  | .wr r v => .write r.number v
  | .rd r => .read r.number
  | .nop => .write 0 0x00
  | .ldkey n => .write 0 (0x10 + BitVec.ofNat 64 (n.bytes / 8))
  | .ldkeyW k => .write 0 (0x10 + BitVec.ofNat 64 k.val)
  | .clrkey => .write 0 0x20
  | .ecbdec => .write 0 0x30
  | .ecbenc => .write 0 0x31
  | .cbcdec => .write 0 0x32
  | .cbcenc => .write 0 0x33
  | .clrerr => .write 0 0x40
  | .srst => .write 0 0x50
  | .cmd v => .write 0 v

/-- The commands `OP` that `blk.OP` takes (R55). -/
inductive BlockCommand where
  | ecbenc | ecbdec | cbcenc | cbcdec
  deriving DecidableEq, Repr

/-- The statement of a block command (R55). -/
def BlockCommand.statement : BlockCommand → Statement
  | .ecbenc => .ecbenc
  | .ecbdec => .ecbdec
  | .cbcenc => .cbcenc
  | .cbcdec => .cbcdec

/-- A pseudo-instruction (R55). -/
inductive Pseudo where
  | key8 (a : Word)
  | key16 (a b : Word)
  | key24 (a b c : Word)
  | setiv (v : Word)
  | blk (op : BlockCommand) (x : Word)
  | status
  deriving DecidableEq, Repr

/-- The statements a pseudo-instruction stands for (R55). -/
def Pseudo.expansion : Pseudo → List Statement
  | .key8 a => [.wr (.named .key0) a, .ldkey .bytes8]
  | .key16 a b => [.wr (.named .key0) a, .wr (.named .key1) b, .ldkey .bytes16]
  | .key24 a b c =>
    [.wr (.named .key0) a, .wr (.named .key1) b, .wr (.named .key2) c, .ldkey .bytes24]
  | .setiv v => [.wr (.named .iv) v]
  | .blk op x => [.wr (.named .din) x, op.statement, .rd (.named .dout)]
  | .status => [.rd (.named .status)]

/-- The host accesses of a pseudo-instruction. -/
def Pseudo.accesses (p : Pseudo) : List HostAccess := p.expansion.map Statement.access

end Sys2Proof.Machine
end

