-- ==== Sys2Proof/Config.lean ====
section
/-! DEFINITION. The implementation parameters of `00_scope.md` rule R3 that the spec does not build into
a rule: the bound on an integer IV of the host wrapper, and the platform's port parameters. -/

namespace Sys2Proof

/-- `IV_INT_LIMIT` (R3, R134, decision D19): the exclusive upper bound on an IV the caller of the host
wrapper gives as an integer. The hardware does not know it. Log 7. -/
def Config.ivIntLimit : Int := 2 ^ 64

/-- `PORT_BASE` (R3, R40): the address of register 0 on the platform's bus. OPEN: no rule reads it. Log 8. -/
opaque Config.portBase : Nat

/-- `PORT_STRIDE` (R3, R40): the distance between registers on the platform's bus. OPEN: no rule reads it. Log 8. -/
opaque Config.portStride : Nat

/-- `PORT_LANES` (R3, R34, R40): for each of the eight bytes of a register, the byte lane it takes on the
platform's bus. OPEN: no rule reads it. Log 8. -/
opaque Config.portLanes : List Nat

end Sys2Proof
end

