-- ==== Sys2Proof/Machine/ModeDriver.lean ====
section
/-! DEFINITION. The sequence functions of the mode driver (`43_mode_driver.md` rules R101 to R103): what a
whole message becomes. The per-block steps stand with the processing commands. -/

namespace Sys2Proof.Machine

/-- `EcbSeq` of R101: each block on its own. -/
def ecbSeq (sets : OneOrThree RoundKeySet) (dir : Dir) (xs : List Word) : List Word :=
  xs.map fun x => cascade x sets dir

/-- `CbcEncSeq` of R102: `C_i = Enc(P_i ^ C_(i-1))`, the running value starting from `iv`. -/
def cbcEncSeq (sets : OneOrThree RoundKeySet) : Word → List Word → List Word
  | _, [] => []
  | iv, p :: ps =>
    cascade (p ^^^ iv) sets .encrypt :: cbcEncSeq sets (cascade (p ^^^ iv) sets .encrypt) ps

/-- `CbcDecSeq` of R103: `P_i = Dec(C_i) ^ C_(i-1)`, the running value being the block just consumed. -/
def cbcDecSeq (sets : OneOrThree RoundKeySet) : Word → List Word → List Word
  | _, [] => []
  | iv, c :: cs => (cascade c sets .decrypt ^^^ iv) :: cbcDecSeq sets c cs

end Sys2Proof.Machine
end

