-- ==== Sys2Proof/Machine/Wrapper.lean ====
section
/-! DEFINITION. The host wrapper of `45_host_wrapper.md`: software around the block, written over host
accesses. A call checks its arguments first and then makes a list of accesses that does not depend on what
they return, so a call is that list (or an error) and its result is read off the values returned (log 6). -/

namespace Sys2Proof.Machine

/-- The source's four error kinds (R139). -/
inductive CallError where
  /-- `InvalidKeyError`: the raw key is no byte string, or its length is not 8, 16 or 24 (R130). -/
  | invalidKey
  /-- `InvalidMessageError`: the message is no byte string (R131). -/
  | invalidMessage
  /-- `InvalidLengthError`: the message length is not a multiple of 8 where it must be (R133). -/
  | invalidLength
  /-- `InvalidIVError`: an IV of a wrong type, byte length or range (R134). -/
  | invalidIv
  deriving DecidableEq, Repr

/-- A value of the host's language as a raw key or a message argument: a byte string, or not (R130, R131). -/
inductive HostValue where
  | bytes (b : List Byte)
  | notBytes
  deriving DecidableEq, Repr

/-- A value of the host's language as an IV argument (R134). -/
inductive IvValue where
  | absent
  | bytes (b : List Byte)
  | int (i : Int)
  | otherType
  deriving DecidableEq, Repr

/-- The writes of R130 for a raw key of `kw` key words: the key words, then LDKEY. -/
def keyWrites (kw : Nat) (key : List Byte) : List HostAccess :=
  [.write 2 (be64 (key.take 8))] ++
  (if 2 ≤ kw then [.write 3 (be64 ((key.drop 8).take 8))] else []) ++
  (if kw = 3 then [.write 4 (be64 ((key.drop 16).take 8))] else []) ++
  [.write 0 (0x10 + BitVec.ofNat 64 kw)]

/-- `MakeKey` of R130: type and length are checked before any access to the block. -/
def makeKey : HostValue → Except CallError (List HostAccess)
  | .notBytes => .error .invalidKey
  | .bytes key =>
    if key.length = 8 ∨ key.length = 16 ∨ key.length = 24 then .ok (keyWrites (key.length / 8) key)
    else .error .invalidKey

/-- `Key.IsSingle()` of R138. -/
def isSingle (s : State) : Bool := (hostRead 1 s).1 &&& 0x3 == 0x1

/-- `Key.IsTriple()` of R138. -/
def isTriple (s : State) : Bool := (hostRead 1 s).1 &&& 0x3 == 0x3

/-- `Pad` of R132: `n` copies of the byte `n`, with `n` in 1..8. -/
def pad (msg : List Byte) : List Byte :=
  msg ++ List.replicate (8 - msg.length % 8) (BitVec.ofNat 8 (8 - msg.length % 8))

/-- `Unpad` of R137: the last byte is trusted as the pad length. -/
def unpad (out : List Byte) : List Byte :=
  match out.getLast? with
  | none => out
  | some n => if out.length ≤ n.toNat then [] else out.take (out.length - n.toNat)

/-- `GuardIV` of R134: the IV as a u64, or none for ECB. -/
def guardIv : IvValue → Except CallError (Option Word)
  | .absent => .ok none
  | .bytes b => if b.length = 8 then .ok (some (be64 b)) else .error .invalidIv
  | .int i => if i < 0 ∨ Config.ivIntLimit ≤ i then .error .invalidIv else .ok (some (BitVec.ofInt 64 i))
  | .otherType => .error .invalidIv

/-- The Message Guard of an encryption (R131, R132, R133): type, then padding or length. -/
def guardPlaintext (padding : Bool) : HostValue → Except CallError (List Byte)
  | .notBytes => .error .invalidMessage
  | .bytes msg =>
    if padding then .ok (pad msg)
    else if msg.length % 8 = 0 then .ok msg
    else .error .invalidLength

/-- The Message Guard of a decryption (R131, R133): padding does not relax the length rule. -/
def guardCiphertext : HostValue → Except CallError (List Byte)
  | .notBytes => .error .invalidMessage
  | .bytes msg => if msg.length % 8 = 0 then .ok msg else .error .invalidLength

/-- One block of the loop of R135 and R136: write DIN, issue the command word, read DOUT. -/
def blockAccesses (command : Word) (x : Word) : List HostAccess := [.write 5 x, .write 0 command, .read 6]

/-- The whole loop, the blocks in order. -/
def streamAccesses (command : Word) (xs : List Word) : List HostAccess := xs.flatMap (blockAccesses command)

/-- The IV write of R135 and R136, if there is an IV. -/
def ivAccesses : Option Word → List HostAccess
  | none => []
  | some v => [.write 7 v]

/-- The command word of R135: ECBENC without an IV, CBCENC with one. -/
def encryptWord : Option Word → Word
  | none => 0x31
  | some _ => 0x33

/-- The command word of R136: ECBDEC without an IV, CBCDEC with one. -/
def decryptWord : Option Word → Word
  | none => 0x30
  | some _ => 0x32

/-- The accesses of one call once its arguments have passed their guards. -/
def messageAccesses (command : Option Word → Word) (iv : Option Word) (msg : List Byte) : List HostAccess :=
  ivAccesses iv ++ streamAccesses (command iv) (blocksOf (msg.length / 8) msg)

/-- The accesses of `Key.Encrypt(message, iv, pad)` (R135): the message guard, then the IV guard, both
before the first access. -/
def encryptAccesses (message : HostValue) (iv : IvValue) (padding : Bool) :
    Except CallError (List HostAccess) :=
  match guardPlaintext padding message with
  | .error e => .error e
  | .ok msg =>
    match guardIv iv with
    | .error e => .error e
    | .ok v => .ok (messageAccesses encryptWord v msg)

/-- The accesses of `Key.Decrypt(message, iv, pad)` (R136). -/
def decryptAccesses (message : HostValue) (iv : IvValue) : Except CallError (List HostAccess) :=
  match guardCiphertext message with
  | .error e => .error e
  | .ok msg =>
    match guardIv iv with
    | .error e => .error e
    | .ok v => .ok (messageAccesses decryptWord v msg)

/-- The values the host read between the states `s` and `t` of a run. -/
def readsBetween (s t : State) : List Word := t.returned.drop s.returned.length

/-- A call on the block: it fails before any access, or its accesses are made and `result` makes its answer
of the values they returned. -/
def call {α : Type} (accesses : Except CallError (List HostAccess)) (result : List Word → α) (s : State) :
    Host.Outcome (Except CallError α × State) Fault Refusal :=
  match accesses with
  | .error e => .next (.error e, s)
  | .ok as =>
    match performAll as s with
    | .next t => .next (.ok (result (readsBetween s t)), t)
    | .fault r => .fault r
    | .refused r => .refused r

/-- `MakeKey(keyBytes)` on the block (R130). -/
def callMakeKey (key : HostValue) (s : State) : Host.Outcome (Except CallError Unit × State) Fault Refusal :=
  call (makeKey key) (fun _ => ()) s

/-- `Key.Encrypt(message, iv, pad)` on the block (R135). -/
def callEncrypt (message : HostValue) (iv : IvValue) (padding : Bool) (s : State) :
    Host.Outcome (Except CallError (List Byte) × State) Fault Refusal :=
  call (encryptAccesses message iv padding) bytesOf s

/-- `Key.Decrypt(message, iv, pad)` on the block (R136): with padding, the last bytes are stripped (R137). -/
def callDecrypt (message : HostValue) (iv : IvValue) (padding : Bool) (s : State) :
    Host.Outcome (Except CallError (List Byte) × State) Fault Refusal :=
  call (decryptAccesses message iv)
    (fun xs => if padding then unpad (bytesOf xs) else bytesOf xs) s

end Sys2Proof.Machine
end

