-- ==== Sys2Proof/Safety.lean ====
section
/-! DEFINITION. The terms in which claims about runs of DESCORE are stated: fail-stop, the accesses that
end it, the accesses that load a key, what two states have in common, and what the store may hold. -/

namespace Sys2Proof.Machine

/-- Fail-stop (R152): an error is recorded. -/
abbrev FailStop (s : State) : Prop := s.err ≠ .noError

/-- The accesses that can end fail-stop (R153): CLRERR, SRST and the hardware reset. -/
def endsFailStop : HostAccess → Bool
  | .read _ => false
  | .write n v => n == 0 && (v == 0x40 || v == 0x50)
  | .reset => true

/-- The accesses that can load a key (R111): a write of an LDKEY word to CMD. -/
def loadsKey : HostAccess → Bool
  | .read _ => false
  | .write n v => n == 0 && v >>> 4 == 0x1
  | .reset => false

/-- The value an access gives the host, if it is a read (R36). -/
def readValue (s : State) : HostAccess → List Word
  | .read n => [(hostRead n s).1]
  | .write _ _ => []
  | .reset => []

/-- The block's own state is the same: every column of R24. The model's own fields may differ. -/
def SameBlock (s t : State) : Prop :=
  t.key0 = s.key0 ∧ t.key1 = s.key1 ∧ t.key2 = s.key2 ∧ t.din = s.din ∧ t.dout = s.dout ∧
    t.iv = s.iv ∧ t.store = s.store ∧ t.err = s.err

/-- The two states agree on everything but the key registers KEY0, KEY1, KEY2 (R12). -/
def SameButKeyRegisters (s t : State) : Prop :=
  t.din = s.din ∧ t.dout = s.dout ∧ t.iv = s.iv ∧ t.store = s.store ∧ t.err = s.err ∧
    t.pending = s.pending ∧ t.returned = s.returned

/-- What the round-key store may hold (R20, R91, R93): nothing, the schedule of one key word, or the
schedules of three of which the middle one differs, as a word, from both others. -/
def StoreFromKeyWords (s : State) : Prop :=
  ∀ sets, s.store = some sets →
    (∃ w, sets = .one (ks w)) ∨
    (∃ w0 w1 w2, w1 ≠ w0 ∧ w1 ≠ w2 ∧ sets = .three (ks w0) (ks w1) (ks w2))

end Sys2Proof.Machine
end

