-- ==== Sys2Proof/Certificates/Slice0/Obligations.lean ====
section
/-! DEFINITION. The statements about DESCORE that the provers are asked to settle. They come from the
numbered rules of the spec; each docstring names the rule. -/

open Sys2Proof Sys2Proof.Machine

/-! ## Encoding -/

/-- R49, R50: every well-formed command is read back from its word, with its field, and every word that
decodes is the word of the command it decodes to; so no two words decode to the same command. -/
def Obligations.DecodeEncodeAgree : Prop :=
  (∀ i : Instr, i.wf = true → decode (encode i) = .ok i) ∧
  (∀ (w : Word) (i : Instr), decode w = .ok i → i.wf = true ∧ encode i = w)

/-- R49: the complete map of legal command words. -/
def Obligations.OpcodeMapIsComplete : Prop :=
  ∀ (w : Word) (i : Instr), decode w = .ok i ↔
    (w = 0x00 ∧ i = .nop) ∨
    (∃ kw : Nat, kw < 16 ∧ w = BitVec.ofNat 64 (0x10 + kw) ∧ i = .ldkey kw) ∨
    (w = 0x20 ∧ i = .clrkey) ∨
    (w = 0x30 ∧ i = .ecbdec) ∨ (w = 0x31 ∧ i = .ecbenc) ∨
    (w = 0x32 ∧ i = .cbcdec) ∨ (w = 0x33 ∧ i = .cbcenc) ∨
    (w = 0x40 ∧ i = .clrerr) ∨ (w = 0x50 ∧ i = .srst)

/-- R51: a word is illegal exactly when a bit of 63:8 is set, or `OP` is 6 or more, or `ARG` is not 0 with
`OP` 0, 2, 4 or 5, or `ARG` is 4 or more with `OP` 3; written to CMD outside fail-stop it raises ILLCMD and
changes nothing else; of the 16 LDKEY words 3 execute. Of the 256 words with `RSV` = 0, 24 decode: the
rule's own list adds up to 24, its sum says 25 (log 10). -/
def Obligations.IllegalCommandWordRaisesIllcmd : Prop :=
  (∀ w : Word,
    (∃ e, decode w = .error e) ↔
      (w.toNat / 256 ≠ 0 ∨ 6 ≤ w.toNat / 16 % 16 ∨
        ((w.toNat / 16 % 16 = 0 ∨ w.toNat / 16 % 16 = 2 ∨ w.toNat / 16 % 16 = 4 ∨ w.toNat / 16 % 16 = 5) ∧
          w.toNat % 16 ≠ 0) ∨
        (w.toNat / 16 % 16 = 3 ∧ 4 ≤ w.toNat % 16))) ∧
  (∀ (w : Word) (s : State), (∃ e, decode w = .error e) → s.err = .noError →
    hostWrite 0 w s = .next { s with err := .illcmd }) ∧
  ((List.range 256).filter fun n => (decode (BitVec.ofNat 64 n)).toOption.isSome).length = 24 ∧
  ((List.range 16).filter legalKeyLength).length = 3

/-- R49: one word of each format and family, written out bit by bit (RSV, OP, ARG) from the rule's table. -/
def Obligations.WrittenWordsDecode : Prop :=
  decode (0#56 ++ 0b0000#4 ++ 0b0000#4) = .ok .nop ∧
  decode (0#56 ++ 0b0001#4 ++ 0b0011#4) = .ok (.ldkey 3) ∧
  decode (0#56 ++ 0b0001#4 ++ 0b1111#4) = .ok (.ldkey 15) ∧
  decode (0#56 ++ 0b0010#4 ++ 0b0000#4) = .ok .clrkey ∧
  decode (0#56 ++ 0b0011#4 ++ 0b0000#4) = .ok .ecbdec ∧
  decode (0#56 ++ 0b0011#4 ++ 0b0001#4) = .ok .ecbenc ∧
  decode (0#56 ++ 0b0011#4 ++ 0b0010#4) = .ok .cbcdec ∧
  decode (0#56 ++ 0b0011#4 ++ 0b0011#4) = .ok .cbcenc ∧
  decode (0#56 ++ 0b0100#4 ++ 0b0000#4) = .ok .clrerr ∧
  decode (0#56 ++ 0b0101#4 ++ 0b0000#4) = .ok .srst

/-! ## The step -/

/-- A step runs the decoded command: when the host's next access writes a word to CMD that decodes to `i`,
step is `exec i` on the state with that access taken. Outside fail-stop this is R37 and R110; that it holds
in fail-stop too is the model's choice, because `exec` itself carries the fail-stop gate (log 4). The list of
accesses is the model's own (log 1). -/
def Obligations.StepRunsDecodedCommand : Prop :=
  ∀ (s : State) (w : Word) (rest : List HostAccess) (i : Instr),
    s.pending = .write 0 w :: rest → decode w = .ok i →
    step s = exec i { s with pending := rest }

/-- Every step takes exactly the first access still to come, appends what a read returned, and leaves the
rest of the run alone; with no access to come it changes nothing (R10, R171; the fields are the model's own,
logs 1 and 2). -/
def Obligations.StepTakesOneAccess : Prop :=
  (∀ s : State, s.pending = [] → step s = .next s) ∧
  (∀ (s t : State) (a : HostAccess) (rest : List HostAccess),
    s.pending = a :: rest → step s = .next t →
    t.pending = rest ∧ t.returned = s.returned ++ readValue s a)

/-- R10: every access has exactly one outcome in every state, and that outcome is a next state: the machine
never faults, never refuses and never sticks, over one step and over every finite run. -/
def Obligations.EveryRunHasANextState : Prop :=
  (∀ s : State, ∃ t, step s = .next t) ∧
  (∀ (as : List HostAccess) (s : State), ∃ t, performAll as s = .next t) ∧
  (∀ (n : Nat) (s : State), ∃ t, Host.Core.run Sys2Proof.core n s = .next t)

/-- `withFetchWord` makes a command the very next step's, whatever else is still to come (the model's own
way to place a command, log 3), in fail-stop too, because `exec` itself carries the fail-stop gate (the
model's choice, log 4). -/
def Obligations.PlacedCommandRunsNext : Prop :=
  ∀ (s : State) (w : Word) (i : Instr), decode w = .ok i →
    step (s.withFetchWord 64 w.toNat) = exec i s

/-! ## The port -/

/-- R36: `HostRead(n)`, for every register number and in every state, fail-stop included. -/
def Obligations.HostReadRule : Prop :=
  ∀ (n : Nat) (s : State),
    hostRead n s =
      if n = 1 then (status s, s)
      else if n = 5 then (s.din, s)
      else if n = 6 then (s.dout, s)
      else if n = 7 then (s.iv, s)
      else (0, if s.err = .noError then { s with err := .illreg } else s)

/-- R37: `HostWrite(n, v)`, for every register number, every value and every state. "Reset state" is what SRST
leaves (R119). -/
def Obligations.HostWriteRule : Prop :=
  ∀ (n : Nat) (v : Word) (s : State),
    hostWrite n v s =
      if s.err ≠ .noError then
        if n = 0 ∧ v = 0x40 then .next { s with err := .noError }
        else if n = 0 ∧ v = 0x50 then exec .srst s
        else .next s
      else if n = 0 then execute v s
      else if n = 2 then .next { s with key0 := v }
      else if n = 3 then .next { s with key1 := v }
      else if n = 4 then .next { s with key2 := v }
      else if n = 5 then .next { s with din := v }
      else if n = 7 then .next { s with iv := v }
      else .next { s with err := .illreg }

/-- R38: the illegal accesses and their whole effect; a legal access never records ILLREG. -/
def Obligations.IllegalAccessRule : Prop :=
  (∀ (n : Nat) (s : State), n = 0 ∨ n = 2 ∨ n = 3 ∨ n = 4 ∨ 8 ≤ n →
    hostRead n s = (0, { s with err := if s.err = .noError then .illreg else s.err })) ∧
  (∀ (n : Nat) (v : Word) (s : State), n = 1 ∨ n = 6 ∨ 8 ≤ n →
    hostWrite n v s = .next { s with err := if s.err = .noError then .illreg else s.err }) ∧
  (∀ (n : Nat) (s : State), n = 1 ∨ n = 5 ∨ n = 6 ∨ n = 7 → (hostRead n s).2 = s) ∧
  (∀ (n : Nat) (v : Word) (s t : State), n = 0 ∨ n = 2 ∨ n = 3 ∨ n = 4 ∨ n = 5 ∨ n = 7 →
    hostWrite n v s = .next t → t.err = .illreg → s.err = .illreg)

/-- R17, R150: the layout of STATUS. KEYV is bit 0, TRIPLE bit 1, ERR bits 7:4 with the codes 0 to 4, every
other bit reads 0; KEYV and TRIPLE say that 1 or 3, and 3, round key sets are held, and TRIPLE is never 1
while KEYV is 0; `IsSingle` and `IsTriple` read them. -/
def Obligations.StatusLayout : Prop :=
  (Err.noError.code = 0 ∧ Err.illcmd.code = 1 ∧ Err.invkey.code = 2 ∧ Err.nokey.code = 3 ∧
    Err.illreg.code = 4) ∧
  ∀ s : State,
    (hostRead 1 s).1 = status s ∧
    ((status s).getLsbD 0 = true ↔ nsets s ≠ 0) ∧
    ((status s).getLsbD 1 = true ↔ nsets s = 3) ∧
    ((status s).extractLsb' 4 4 = s.err.code) ∧ s.err.code.toNat ≤ 4 ∧
    ((status s).extractLsb' 2 2 = 0) ∧
    ((status s).extractLsb' 8 56 = 0) ∧
    ((status s).getLsbD 1 = true → (status s).getLsbD 0 = true) ∧
    (isSingle s = true ↔ nsets s = 1) ∧ (isTriple s = true ↔ nsets s = 3)

/-! ## Reset -/

/-- R22: the reset state of the block. -/
def Obligations.ResetState : Prop :=
  State.reset.key0 = 0 ∧ State.reset.key1 = 0 ∧ State.reset.key2 = 0 ∧ State.reset.din = 0 ∧
  State.reset.dout = 0 ∧ State.reset.iv = 0 ∧ nsets State.reset = 0 ∧ State.reset.store = none ∧
  State.reset.err = .noError ∧ keyv State.reset = false ∧ triple State.reset = false ∧
  status State.reset = 0x0000000000000000

/-- R170: the hardware reset and SRST both produce exactly the reset state, in every state, fail-stop
included; the run's own record stays (log 9). -/
def Obligations.BothResetsGiveTheResetState : Prop :=
  ∀ s : State, ∃ t : State,
    perform .reset s = .next t ∧ exec .srst s = .next t ∧ hostWrite 0 0x50 s = .next t ∧
    SameBlock State.reset t ∧ t.pending = s.pending ∧ t.returned = s.returned

/-! ## Errors -/

/-- R151: `raise E` records `E` only if no error is recorded and writes nothing else; and wherever an error is
raised, the command or access that raised makes none of its other writes: an illegal command word (ILLCMD),
LDKEY with a length that is not 1, 2 or 3 (INVKEY), a processing command with no key (NOKEY), an illegal
write and an illegal read (ILLREG). That INVKEY also covers a length of 16 and above, which no command word
has, is the model's choice (log 13). -/
def Obligations.RaiseRule : Prop :=
  (∀ (e : Err) (s : State), raise e s = if s.err = .noError then { s with err := e } else s) ∧
  (∀ (w : Word) (s : State), s.err = .noError → (∃ e, decode w = .error e) →
    hostWrite 0 w s = .next { s with err := .illcmd }) ∧
  (∀ (kw : Nat) (s : State), s.err = .noError → ¬(kw = 1 ∨ kw = 2 ∨ kw = 3) →
    exec (.ldkey kw) s = .next { s with err := .invkey }) ∧
  (∀ (i : Instr) (s : State), i = .ecbdec ∨ i = .ecbenc ∨ i = .cbcdec ∨ i = .cbcenc →
    s.err = .noError → nsets s = 0 → exec i s = .next { s with err := .nokey }) ∧
  (∀ (n : Nat) (v : Word) (s : State), s.err = .noError → n = 1 ∨ n = 6 ∨ 8 ≤ n →
    hostWrite n v s = .next { s with err := .illreg }) ∧
  (∀ (n : Nat) (s : State), s.err = .noError → n = 0 ∨ n = 2 ∨ n = 3 ∨ n = 4 ∨ 8 ≤ n →
    hostRead n s = (0, { s with err := .illreg }))

/-- R152: in fail-stop every write is ignored but the exact words of CLRERR and SRST to CMD; reads work and
change nothing. -/
def Obligations.FailStopRule : Prop :=
  ∀ s : State, s.err ≠ .noError →
    (∀ (n : Nat) (v : Word), ¬(n = 0 ∧ v = 0x40) → ¬(n = 0 ∧ v = 0x50) → hostWrite n v s = .next s) ∧
    hostWrite 0 0x40 s = .next { s with err := .noError } ∧
    hostWrite 0 0x50 s = exec .srst s ∧
    (∀ n : Nat, (hostRead n s).2 = s) ∧
    (∀ n : Nat, n = 0 ∨ n = 2 ∨ n = 3 ∨ n = 4 ∨ 8 ≤ n → (hostRead n s).1 = 0) ∧
    (hostRead 1 s).1 = status s ∧ (hostRead 5 s).1 = s.din ∧ (hostRead 6 s).1 = s.dout ∧
    (hostRead 7 s).1 = s.iv

/-- Fail-stop as a rule of the commands: with an error recorded every command but CLRERR and SRST does nothing
at all. The spec says it of the writes that carry the commands (R152); that `exec` says it of the commands
themselves is the model's choice (log 4). -/
def Obligations.CommandsIgnoredInFailStop : Prop :=
  ∀ (i : Instr) (s : State), s.err ≠ .noError → i ≠ .clrerr → i ≠ .srst → exec i s = .next s

/-- R18 and R152 over runs: however many accesses follow, once an error is recorded the block stays
exactly as it is until a CLRERR, an SRST or a hardware reset. A host that reads STATUS at the end of a
stream therefore learns that something in it failed (R175). -/
def Obligations.ErrorStaysThroughEveryRun : Prop :=
  ∀ (as : List HostAccess) (s t : State), s.err ≠ .noError → (∀ a ∈ as, endsFailStop a = false) →
    performAll as s = .next t → SameBlock s t

/-- R18: `ERR` is written only when it is 0, and cleared only by CLRERR, SRST and reset, over every access:
a later failure does not overwrite it and a later success does not clear it. -/
def Obligations.FirstErrorWins : Prop :=
  ∀ (a : HostAccess) (s t : State), perform a s = .next t → t.err ≠ s.err →
    (s.err = .noError ∧ t.err ≠ .noError) ∨ (t.err = .noError ∧ endsFailStop a = true)

/-- R154: the order of the checks of one write. Fail-stop comes first, then the register number, then the
decode, then the command's own precondition. -/
def Obligations.OrderOfChecks : Prop :=
  ∀ (n : Nat) (v : Word) (s t : State), hostWrite n v s = .next t →
    (s.err ≠ .noError → endsFailStop (.write n v) = false → t = s) ∧
    (s.err = .noError →
      (t.err = .illreg ↔ (n = 1 ∨ n = 6 ∨ 8 ≤ n)) ∧
      (t.err = .illcmd ↔ (n = 0 ∧ ∃ e, decode v = .error e)) ∧
      (t.err = .invkey ↔ (n = 0 ∧ ∃ kw, decode v = .ok (.ldkey kw) ∧ legalKeyLength kw = false)) ∧
      (t.err = .nokey ↔ (n = 0 ∧ s.store = none ∧ (decode v = .ok .ecbdec ∨ decode v = .ok .ecbenc ∨
        decode v = .ok .cbcdec ∨ decode v = .ok .cbcenc))))

/-! ## The commands -/

/-- R112, R118, R119: the system commands that need no key, in every state, fail-stop included. NOP leaves the
state as it is; CLRERR makes ERR 0 and changes nothing else; SRST makes every register 0, forgets the key
and makes ERR 0, so that the block is as after reset. -/
def Obligations.SystemCommands : Prop :=
  encode .nop = 0x00 ∧ encode .clrerr = 0x40 ∧ encode .srst = 0x50 ∧
  ∀ s : State,
    exec .nop s = .next s ∧
    exec .clrerr s = .next { s with err := .noError } ∧
    ∃ t : State, exec .srst s = .next t ∧ SameBlock State.reset t ∧
      t.key0 = 0 ∧ t.key1 = 0 ∧ t.key2 = 0 ∧ t.din = 0 ∧ t.dout = 0 ∧ t.iv = 0 ∧
      nsets t = 0 ∧ t.err = .noError ∧ status t = 0

/-- R111: LDKEY outside fail-stop. With `KW` 1, 2 or 3 it loads the schedules of the key words that the key
guard selects and changes nothing else, whatever was loaded before; KEYV becomes 1 and TRIPLE says whether
three were selected; the same command again loads the same store. Key registers beyond `KW` are not read.
With any other of the sixteen values of `KW` it raises INVKEY and changes nothing else. -/
def Obligations.LdkeyLoadsTheKey : Prop :=
  (∀ (kw : Nat) (s : State), s.err = .noError → kw = 1 ∨ kw = 2 ∨ kw = 3 →
    exec (.ldkey kw) s =
      .next { s with store := some ((keyGuard kw s.key0 s.key1 s.key2).map ks) }) ∧
  (∀ (kw : Nat) (s t : State), s.err = .noError → kw = 1 ∨ kw = 2 ∨ kw = 3 →
    exec (.ldkey kw) s = .next t →
    nsets t = (keyGuard kw s.key0 s.key1 s.key2).size ∧ keyv t = true ∧
    (triple t = true ↔ (keyGuard kw s.key0 s.key1 s.key2).size = 3) ∧
    exec (.ldkey kw) t = .next t) ∧
  (∀ (s t u : State) (k1 k2 : Word), s.err = .noError →
    exec (.ldkey 1) s = .next t → exec (.ldkey 1) { s with key1 := k1, key2 := k2 } = .next u →
    u = { t with key1 := k1, key2 := k2 }) ∧
  (∀ (s t u : State) (k2 : Word), s.err = .noError →
    exec (.ldkey 2) s = .next t → exec (.ldkey 2) { s with key2 := k2 } = .next u →
    u = { t with key2 := k2 }) ∧
  (∀ (kw : Nat) (s : State), s.err = .noError → kw < 16 → ¬(kw = 1 ∨ kw = 2 ∨ kw = 3) →
    exec (.ldkey kw) s = .next { s with err := .invkey }) ∧
  (∀ kw : Nat, kw < 16 → encode (.ldkey kw) = BitVec.ofNat 64 (0x10 + kw))

/-- R113: CLRKEY outside fail-stop, whether or not a key is loaded. DIN, DOUT and IV stay, and a processing
command then raises NOKEY. -/
def Obligations.ClrkeyForgetsTheKey : Prop :=
  encode .clrkey = 0x20 ∧
  ∀ s : State, s.err = .noError →
    exec .clrkey s = .next { s with key0 := 0, key1 := 0, key2 := 0, store := none } ∧
    (∀ t : State, exec .clrkey s = .next t → keyv t = false ∧ triple t = false ∧
      ∀ i : Instr, i = .ecbdec ∨ i = .ecbenc ∨ i = .cbcdec ∨ i = .cbcenc →
        exec i t = .next { t with err := .nokey })

/-- R114, R115: the ECB commands. With a key loaded DOUT becomes the cascade of DIN in the command's
direction and nothing else changes, IV included; with no key loaded NOKEY is raised. Repeating the command
gives the same DOUT again, and ECBDEC on the result of ECBENC gives the block back. -/
def Obligations.EcbCommands : Prop :=
  encode .ecbdec = 0x30 ∧ encode .ecbenc = 0x31 ∧
  ∀ s : State, s.err = .noError →
    (∀ sets, s.store = some sets →
      exec .ecbdec s = .next { s with dout := cascade s.din sets .decrypt } ∧
      exec .ecbenc s = .next { s with dout := cascade s.din sets .encrypt } ∧
      (∀ t, exec .ecbdec s = .next t → exec .ecbdec t = .next t) ∧
      (∀ t, exec .ecbenc s = .next t → exec .ecbenc t = .next t) ∧
      (∀ t, exec .ecbenc s = .next t →
        exec .ecbdec { t with din := t.dout } = .next { t with din := t.dout, dout := s.din })) ∧
    (s.store = none →
      exec .ecbdec s = .next { s with err := .nokey } ∧
      exec .ecbenc s = .next { s with err := .nokey })

/-- R116, R117: the CBC commands. With a key loaded CBCENC makes DOUT and IV the cascade of `DIN ^ IV`, and
CBCDEC makes DOUT the cascade of DIN mixed with the OLD IV and then IV the block in DIN; nothing else
changes. With no key loaded NOKEY is raised and neither DOUT nor IV changes. A repeated CBCDEC gives another
result unless the old IV equalled DIN; a repeated CBCENC encrypts `DIN ^ (previous result)`. With IV = 0 the
result is that of the ECB command. -/
def Obligations.CbcCommands : Prop :=
  encode .cbcdec = 0x32 ∧ encode .cbcenc = 0x33 ∧
  ∀ s : State, s.err = .noError →
    (∀ sets, s.store = some sets →
      exec .cbcdec s = .next { s with dout := cascade s.din sets .decrypt ^^^ s.iv, iv := s.din } ∧
      exec .cbcenc s = .next { s with dout := cascade (s.din ^^^ s.iv) sets .encrypt,
                                      iv := cascade (s.din ^^^ s.iv) sets .encrypt } ∧
      (∀ t u : State, exec .cbcdec s = .next t → exec .cbcdec t = .next u →
        (u.dout = t.dout ↔ s.iv = s.din)) ∧
      (∀ t u : State, exec .cbcenc s = .next t → exec .cbcenc t = .next u →
        u.dout = cascade (s.din ^^^ t.dout) sets .encrypt)) ∧
    (s.store = none →
      exec .cbcdec s = .next { s with err := .nokey } ∧
      exec .cbcenc s = .next { s with err := .nokey }) ∧
    (s.iv = 0 → ∀ t u : State,
      (exec .cbcenc s = .next t → exec .ecbenc s = .next u → t.dout = u.dout) ∧
      (exec .cbcdec s = .next t → exec .ecbdec s = .next u → t.dout = u.dout))

/-- R24: who writes what, over every access in every state. KEY0, KEY1 and KEY2 change only by their own
write, CLRKEY, SRST and reset; DIN only by its write, SRST and reset; DOUT only by a processing command, SRST
and reset; IV only by its write, a CBC command, SRST and reset; the round-key store only by LDKEY, CLRKEY,
SRST and reset. -/
def Obligations.WhoWritesWhat : Prop :=
  ∀ (a : HostAccess) (s t : State), perform a s = .next t →
    (t.key0 ≠ s.key0 → a = .reset ∨ a = .write 0 0x20 ∨ a = .write 0 0x50 ∨ a = .write 2 t.key0) ∧
    (t.key1 ≠ s.key1 → a = .reset ∨ a = .write 0 0x20 ∨ a = .write 0 0x50 ∨ a = .write 3 t.key1) ∧
    (t.key2 ≠ s.key2 → a = .reset ∨ a = .write 0 0x20 ∨ a = .write 0 0x50 ∨ a = .write 4 t.key2) ∧
    (t.din ≠ s.din → a = .reset ∨ a = .write 0 0x50 ∨ a = .write 5 t.din) ∧
    (t.dout ≠ s.dout → a = .reset ∨ a = .write 0 0x50 ∨ a = .write 0 0x30 ∨ a = .write 0 0x31 ∨
      a = .write 0 0x32 ∨ a = .write 0 0x33) ∧
    (t.iv ≠ s.iv → a = .reset ∨ a = .write 0 0x50 ∨ a = .write 0 0x32 ∨ a = .write 0 0x33 ∨
      a = .write 7 t.iv) ∧
    (t.store ≠ s.store → a = .reset ∨ a = .write 0 0x50 ∨ a = .write 0 0x20 ∨
      a = .write 0 0x11 ∨ a = .write 0 0x12 ∨ a = .write 0 0x13)

/-! ## The round-key store -/

/-- R20, R91, R93: whatever step is taken, the store holds nothing, or the schedule of one key word, or the
schedules of three key words of which the middle one differs from both others. -/
def Obligations.StoreInvariantKept : Prop :=
  ∀ s t : State, StoreFromKeyWords s → step s = .next t → StoreFromKeyWords t

/-- The invariant of the store holds in the reset state, which holds no key (R22). -/
def Obligations.StoreInvariantAtReset : Prop := StoreFromKeyWords State.reset

/-! ## Permute and the byte order -/

/-- R5: output bit `j` of `Permute(v, n, T)` is input bit `T[j]`, in DES numbering, for every table with
entries in `1..n`; and the formula of the rule. -/
def Obligations.PermuteReadsTheTable : Prop :=
  ∀ (n : Nat) (v : BitVec n) (t : List Nat), (∀ i ∈ t, 1 ≤ i ∧ i ≤ n) →
    (∀ (j : Nat) (h : j < t.length), dbit (permute t.length v t) (j + 1) = dbit v t[j]) ∧
    (permute t.length v t).toNat =
      ((List.range t.length).map fun j =>
        (v.toNat >>> (n - t.getD j 0) &&& 1) <<< (t.length - (j + 1))).sum

/-- R31: `be64` and `bytes8` are inverse to each other, and the formula of each. -/
def Obligations.ByteOrderRule : Prop :=
  (∀ b0 b1 b2 b3 b4 b5 b6 b7 : Byte,
    be64 [b0, b1, b2, b3, b4, b5, b6, b7] = b0 ++ b1 ++ b2 ++ b3 ++ b4 ++ b5 ++ b6 ++ b7) ∧
  (∀ b : List Byte, b.length = 8 → bytes8 (be64 b) = b) ∧
  (∀ v : Word, be64 (bytes8 v) = v ∧ (bytes8 v).length = 8) ∧
  (∀ (v : Word) (i : Nat) (h : i < (bytes8 v).length),
    ((bytes8 v)[i]).toNat = v.toNat >>> (56 - 8 * i) &&& 0xFF) ∧
  be64 [0x68, 0x69, 0x20, 0x61, 0x6E, 0x6F, 0x74, 0x68] = 0x686920616E6F7468

/-! ## The key schedule -/

/-- R67 (b), (c): each subkey in closed form, from the halves of round 0 rotated by the running total of the
rotation schedule; after sixteen rounds the total is 28, so the last subkey reads the unrotated halves. -/
def Obligations.SubkeyInClosedForm : Prop :=
  (∀ (k : Word) (n : Nat) (h : n < 16),
    (ks k)[n] =
      permute 48 ((keyHalfC k).rotateLeft (rot.take (n + 1)).sum ++
        (keyHalfD k).rotateLeft (rot.take (n + 1)).sum) pc2) ∧
  (∀ k : Word, (ks k)[15] = permute 48 (keyHalfC k ++ keyHalfD k) pc2)

/-- R68, R67 (a): two key words have the same schedule exactly when they agree outside the eight parity
positions. -/
def Obligations.ScheduleIgnoresParityOnly : Prop :=
  ∀ k k' : Word, ks k = ks k' ↔ (k ^^^ k') &&& 0xFEFEFEFEFEFEFEFE = 0

/-- R67 (d): the schedule of the complement is the complement of the schedule. -/
def Obligations.ScheduleOfComplement : Prop :=
  ∀ (k : Word) (n : Nat) (h : n < 16), (ks (~~~k))[n] = ~~~(ks k)[n]

/-- R67 (e): if each of `C[0]`, `D[0]` is all zeros or all ones, all sixteen subkeys are equal; the four
words of the rule are such keys. -/
def Obligations.KeysWithEqualSubkeys : Prop :=
  (∀ k : Word, (keyHalfC k = 0 ∨ keyHalfC k = 0xFFFFFFF) → (keyHalfD k = 0 ∨ keyHalfD k = 0xFFFFFFF) →
    ∀ (m n : Nat) (hm : m < 16) (hn : n < 16), (ks k)[m] = (ks k)[n]) ∧
  (∀ k : Word, k = 0x0101010101010101 ∨ k = 0xFEFEFEFEFEFEFEFE ∨ k = 0xE0E0E0E0F1F1F1F1 ∨
      k = 0x1F1F1F1F0E0E0E0E →
    (keyHalfC k = 0 ∨ keyHalfC k = 0xFFFFFFF) ∧ (keyHalfD k = 0 ∨ keyHalfD k = 0xFFFFFFF))

/-! ## The block transform -/

/-- R77, R76: the rule's "direct" restatement of the S-boxes, digit `B` from the left, is what the tables with
the row and column addressing give, for all eight boxes and all 64 groups. -/
def Obligations.SboxesMatchDirectForm : Prop :=
  ∀ (i : Fin 8) (b : Fin 64),
    (sbox (sboxes.getD i.val []) (BitVec.ofFin b)).toNat =
      ([0xE04FD7142EF2BD813AA66CCB599503784F1CE882D46921B7F5CB937E3AA0560D,
        0xF31D84E76FB2384E9C7021DAC6095BA50DE87AB1A34FD4125B86C76C90352EF9,
        0xAD0790E96334F65A12D8C57EBC4B2F81D16A4D9086F93807B41F2EC35BA5E27C,
        0x7DD8EB35066F90A31427825CB1CA4EF9A36F9006CAB17DD8F91435EB5C27824E,
        0x2ECB421C74A7BD6185503FFAD309E8964B281CB7A1DE728DF69FC0596A3405E3,
        0xCA1FA4F2972C698506D13D4EE07B53B894E3F25C2985CF3A7B0E41A716D0B86D,
        0x4DB02BE7F40981DA3EC3957C52AF6816164BBDD8C1347AE7A9F5608F0E52932C,
        0xD12F8D486AF3B714AC9536EB500EC97272B14E1794CAE82D0F6CA9D0F335568B].getD i.val 0)
        / 16 ^ (63 - b.val) % 16

/-- R80, R84: the two worked examples of the rules, and the four single-block results of the source's first
two vectors (`95_test_vectors.md` sections 1.1 and 1.2). -/
def Obligations.SourceVectors : Prop :=
  feistel 0xF0AAF0AA 0x1B02EFFC7072 = 0x234AA9BB ∧
  bt 0x0123456789ABCDEF (ks 0x133457799BBCDFF1) .encrypt = 0x85E813540F0AB405 ∧
  cascade 0x686920616E6F7468 (loadSets (keyGuard 1 0x0123456789ABCDEF 0 0)) .encrypt = 0x2D3820D2963F9706 ∧
  cascade 0x657220776F726C64 (loadSets (keyGuard 1 0x0123456789ABCDEF 0 0)) .encrypt = 0xEE8B812D03E3A91A ∧
  cascade 0x686920616E6F7468 (loadSets (keyGuard 2 0x0123456789ABCDEF 0xFEDCBA9876543210 0)) .encrypt =
    0x4938A7BD7E859946 ∧
  cascade 0x657220776F726C64 (loadSets (keyGuard 2 0x0123456789ABCDEF 0xFEDCBA9876543210 0)) .encrypt =
    0x5FBEF201D341CFA8

/-- R83: the result is FP of the joined halves, and FP is the inverse of IP, as permutations of blocks both
ways and entry by entry. -/
def Obligations.FpIsTheInverseOfIp : Prop :=
  (∀ (x : Word) (q : List RoundKey) (l r : Half), q.foldl feistelRound (splitIP x) = (l, r) →
    btCore x q = permute 64 (r ++ l) fp) ∧
  (∀ v : Word, permute 64 (permute 64 v ip) fp = v) ∧
  (∀ v : Word, permute 64 (permute 64 v fp) ip = v) ∧
  (∀ j : Nat, 1 ≤ j → j ≤ 64 → ip.getD (fp.getD (j - 1) 0 - 1) 0 = j)

/-- R82: the halves of the last round are not swapped: before FP the upper half is `L[15] ^ F(R[15], Q[16])`
and the lower half is `R[15]`, where `L[15]`, `R[15]` are what the rounds before left. -/
def Obligations.LastRoundIsNotSwapped : Prop :=
  ∀ (x : Word) (q : List RoundKey) (k : RoundKey) (l r : Half),
    q.foldl feistelRound (splitIP x) = (l, r) →
    btCore x (q ++ [k]) = permute 64 ((l ^^^ feistel r k) ++ r) fp

/-- R86 (a), (b): a transform under a list of subkeys is undone by the transform under the reversed list, for
every list; so encryption and decryption under a round key set are inverse, and each is a bijection. -/
def Obligations.BlockTransformInverse : Prop :=
  (∀ (x : Word) (q : List RoundKey), btCore (btCore x q) q.reverse = x) ∧
  (∀ (x : Word) (rk : RoundKeySet),
    bt (bt x rk .encrypt) rk .decrypt = x ∧ bt (bt x rk .decrypt) rk .encrypt = x) ∧
  (∀ q : List RoundKey, Function.Bijective fun x => btCore x q)

/-- R86 (c): the transform of the complement under the complemented key word is the complement. -/
def Obligations.TransformOfComplement : Prop :=
  ∀ (x k : Word) (dir : Dir), bt (~~~x) (ks (~~~k)) dir = ~~~(bt x (ks k) dir)

/-- R86 (d): if all sixteen subkeys are equal the two directions agree and the transform is its own inverse. -/
def Obligations.EqualSubkeysSelfInverse : Prop :=
  ∀ (x : Word) (rk : RoundKeySet), (∀ (m n : Nat) (hm : m < 16) (hn : n < 16), rk[m] = rk[n]) →
    bt x rk .encrypt = bt x rk .decrypt ∧ bt (bt x rk .encrypt) rk .encrypt = x

/-! ## Key guard and cascade -/

/-- R92: the outcome of the key guard, case by case. Key words that the key length does not use are not
read: the rows for 1 and 2 words hold whatever they are (R90). -/
def Obligations.KeyGuardOutcomes : Prop :=
  ∀ k0 k1 k2 : Word,
    keyGuard 1 k0 k1 k2 = .one k0 ∧
    (k1 = k0 → keyGuard 2 k0 k1 k2 = .one k0) ∧
    (k1 ≠ k0 → keyGuard 2 k0 k1 k2 = .three k0 k1 k0) ∧
    (k1 = k2 → keyGuard 3 k0 k1 k2 = .one k0) ∧
    (k1 ≠ k2 → k1 = k0 → keyGuard 3 k0 k1 k2 = .one k2) ∧
    (k1 ≠ k2 → k1 ≠ k0 → keyGuard 3 k0 k1 k2 = .three k0 k1 k2)

/-- R94, R95: the stage plans, and the cascade they make: single DES for one set, and for three
encrypt-decrypt-encrypt in order or decrypt-encrypt-decrypt backward. -/
def Obligations.CascadeStages : Prop :=
  stagePlan (List.range 1) .encrypt = [(0, .encrypt)] ∧
  stagePlan (List.range 1) .decrypt = [(0, .decrypt)] ∧
  stagePlan (List.range 3) .encrypt = [(0, .encrypt), (1, .decrypt), (2, .encrypt)] ∧
  stagePlan (List.range 3) .decrypt = [(2, .decrypt), (1, .encrypt), (0, .decrypt)] ∧
  ∀ (x : Word) (a b c : RoundKeySet),
    cascade x (.one a) .encrypt = bt x a .encrypt ∧
    cascade x (.one a) .decrypt = bt x a .decrypt ∧
    cascade x (.three a b c) .encrypt = bt (bt (bt x a .encrypt) b .decrypt) c .encrypt ∧
    cascade x (.three a b c) .decrypt = bt (bt (bt x c .decrypt) b .encrypt) a .decrypt

/-- R96: the two directions of the cascade are inverse to each other, and each is a bijection. -/
def Obligations.CascadeInverse : Prop :=
  (∀ (x : Word) (sets : OneOrThree RoundKeySet),
    cascade (cascade x sets .encrypt) sets .decrypt = x ∧
    cascade (cascade x sets .decrypt) sets .encrypt = x) ∧
  (∀ (sets : OneOrThree RoundKeySet) (dir : Dir), Function.Bijective fun x => cascade x sets dir)

/-- R97 (a), (b): the keys that collapse to one stage compute what the three stages would have computed, and
so does a 24-byte key whose first two words differ, in parity bits only, although it loads three sets: for
every mask of the eight parity positions but 0, and every third word that is not the second. -/
def Obligations.DegenerateKeysSameFunction : Prop :=
  (∀ (x k0 k1 : Word) (dir : Dir),
    cascade x (.three (ks k0) (ks k1) (ks k1)) dir = cascade x (.one (ks k0)) dir) ∧
  (∀ (x k0 k2 : Word) (dir : Dir),
    cascade x (.three (ks k0) (ks k0) (ks k2)) dir = cascade x (.one (ks k2)) dir) ∧
  (∀ (x k0 k2 m : Word) (dir : Dir), m ≠ 0 → m &&& 0xFEFEFEFEFEFEFEFE = 0 → k2 ≠ k0 ^^^ m →
    keyGuard 3 k0 (k0 ^^^ m) k2 = .three k0 (k0 ^^^ m) k2 ∧
    cascade x (loadSets (keyGuard 3 k0 (k0 ^^^ m) k2)) dir =
      cascade x (loadSets (keyGuard 1 k2 0 0)) dir)

/-! ## The mode driver -/

/-- R106: the round trips of both modes, all four compositions. -/
def Obligations.ModeRoundTrips : Prop :=
  ∀ (sets : OneOrThree RoundKeySet) (iv : Word) (xs : List Word),
    ecbSeq sets .decrypt (ecbSeq sets .encrypt xs) = xs ∧
    ecbSeq sets .encrypt (ecbSeq sets .decrypt xs) = xs ∧
    cbcDecSeq sets iv (cbcEncSeq sets iv xs) = xs ∧
    cbcEncSeq sets iv (cbcDecSeq sets iv xs) = xs

/-- R107: equal blocks have equal ECB results; another IV changes every block of a CBC encryption, and in a
decryption the first block only. -/
def Obligations.ChainingDiffuses : Prop :=
  (∀ (sets : OneOrThree RoundKeySet) (dir : Dir) (xs : List Word) (i j : Nat),
    xs[i]? = xs[j]? → (ecbSeq sets dir xs)[i]? = (ecbSeq sets dir xs)[j]?) ∧
  (∀ (sets : OneOrThree RoundKeySet) (iv iv' : Word) (ps : List Word), iv ≠ iv' →
    ∀ i : Nat, i < ps.length → (cbcEncSeq sets iv ps)[i]? ≠ (cbcEncSeq sets iv' ps)[i]?) ∧
  (∀ (sets : OneOrThree RoundKeySet) (iv iv' : Word) (cs : List Word), iv ≠ iv' → cs ≠ [] →
    (cbcDecSeq sets iv cs)[0]? ≠ (cbcDecSeq sets iv' cs)[0]? ∧
    (cbcDecSeq sets iv cs).tail = (cbcDecSeq sets iv' cs).tail)

/-- R104: what a stream of steps reads. With a key loaded and no error, if the host's accesses are, for each
block in order, write DIN, issue the command, read DOUT, then the values read are those of the sequence
function, for ECB in both directions and for CBC encryption and decryption started by a write of IV; IV
ends as the rule says, and the key stays. The lists that hold the accesses to come and the values read are
the model's own (log 1). -/
def Obligations.StreamsComputeTheSequences : Prop :=
  ∀ (s : State) (sets : OneOrThree RoundKeySet) (xs : List Word) (iv : Word) (rest : List HostAccess),
    s.err = .noError → s.store = some sets →
    (s.pending = streamAccesses 0x31 xs ++ rest → ∃ t,
      Host.Core.run Sys2Proof.core (3 * xs.length) s = .next t ∧
      t.returned = s.returned ++ ecbSeq sets .encrypt xs ∧ t.iv = s.iv ∧
      t.store = s.store ∧ t.err = .noError ∧ t.pending = rest) ∧
    (s.pending = streamAccesses 0x30 xs ++ rest → ∃ t,
      Host.Core.run Sys2Proof.core (3 * xs.length) s = .next t ∧
      t.returned = s.returned ++ ecbSeq sets .decrypt xs ∧ t.iv = s.iv ∧
      t.store = s.store ∧ t.err = .noError ∧ t.pending = rest) ∧
    (s.pending = .write 7 iv :: (streamAccesses 0x33 xs ++ rest) → ∃ t,
      Host.Core.run Sys2Proof.core (3 * xs.length + 1) s = .next t ∧
      t.returned = s.returned ++ cbcEncSeq sets iv xs ∧
      t.iv = (cbcEncSeq sets iv xs).getLastD iv ∧
      t.store = s.store ∧ t.err = .noError ∧ t.pending = rest) ∧
    (s.pending = .write 7 iv :: (streamAccesses 0x32 xs ++ rest) → ∃ t,
      Host.Core.run Sys2Proof.core (3 * xs.length + 1) s = .next t ∧
      t.returned = s.returned ++ cbcDecSeq sets iv xs ∧
      t.iv = xs.getLastD iv ∧
      t.store = s.store ∧ t.err = .noError ∧ t.pending = rest)

/-! ## The key cannot be read -/

/-- R12, R20, R158: no read of the host depends on a key register or on a round key: two states that agree on
everything else and on the number of sets give the same value for every register number. -/
def Obligations.KeysCannotBeRead : Prop :=
  ∀ s t : State, t.din = s.din → t.dout = s.dout → t.iv = s.iv → t.err = s.err → nsets t = nsets s →
    ∀ n : Nat, (hostRead n t).1 = (hostRead n s).1

/-- R173, R12: the key registers are not the key. Over every run without an LDKEY, two states that differ in
the key registers alone return the same values and stay equal but for the key registers. -/
def Obligations.KeyRegistersUnseenUntilLdkey : Prop :=
  ∀ (as : List HostAccess) (s t s' t' : State), (∀ a ∈ as, loadsKey a = false) →
    SameButKeyRegisters s t → performAll as s = .next s' → performAll as t = .next t' →
    SameButKeyRegisters s' t' ∧ t'.returned = s'.returned

/-! ## The host wrapper and the host script -/

/-- R132, R137, R140: `Pad` appends `n` copies of the byte `n`, `n` in 1..8, which makes the length the next
multiple of 8 strictly above it, and `Unpad` takes exactly those bytes away again. -/
def Obligations.PaddingRoundTrip : Prop :=
  ∀ msg : List Byte,
    pad msg = msg ++ List.replicate (8 - msg.length % 8) (BitVec.ofNat 8 (8 - msg.length % 8)) ∧
    1 ≤ 8 - msg.length % 8 ∧ 8 - msg.length % 8 ≤ 8 ∧
    unpad (pad msg) = msg ∧ (pad msg).length % 8 = 0 ∧
    msg.length < (pad msg).length ∧ (pad msg).length ≤ msg.length + 8

/-- R134: the Initial-Value Guard, over every kind of argument; an integer of the range is the word of that
value. -/
def Obligations.GuardIvRule : Prop :=
  guardIv .absent = .ok none ∧ guardIv .otherType = .error .invalidIv ∧
  (∀ b : List Byte, b.length = 8 → guardIv (.bytes b) = .ok (some (be64 b))) ∧
  (∀ b : List Byte, b.length ≠ 8 → guardIv (.bytes b) = .error .invalidIv) ∧
  (∀ i : Int, 0 ≤ i → i < 2 ^ 64 → ∃ w : Word, guardIv (.int i) = .ok (some w) ∧ (w.toNat : Int) = i) ∧
  (∀ i : Int, i < 0 ∨ 2 ^ 64 ≤ i → guardIv (.int i) = .error .invalidIv)

/-- R133, R135, R136, R139: which calls fail, with which error, and that a failing call makes no access. -/
def Obligations.FailingCallsTouchNothing : Prop :=
  (∀ (key : HostValue) (s : State), (∀ b, key = .bytes b → b.length ≠ 8 ∧ b.length ≠ 16 ∧ b.length ≠ 24) →
    callMakeKey key s = .next (.error .invalidKey, s)) ∧
  (∀ (iv : IvValue) (padding : Bool) (s : State),
    callEncrypt .notBytes iv padding s = .next (.error .invalidMessage, s) ∧
    callDecrypt .notBytes iv padding s = .next (.error .invalidMessage, s)) ∧
  (∀ (b : List Byte) (iv : IvValue) (padding : Bool) (s : State), b.length % 8 ≠ 0 →
    callEncrypt (.bytes b) iv false s = .next (.error .invalidLength, s) ∧
    callDecrypt (.bytes b) iv padding s = .next (.error .invalidLength, s)) ∧
  (∀ (b : List Byte) (iv : IvValue) (padding : Bool) (s : State), guardIv iv = .error .invalidIv →
    (padding = true ∨ b.length % 8 = 0 → callEncrypt (.bytes b) iv padding s = .next (.error .invalidIv, s)) ∧
    (b.length % 8 = 0 → callDecrypt (.bytes b) iv padding s = .next (.error .invalidIv, s)))

/-- R130, R138: `MakeKey` with a key of 8, 16 or 24 bytes loads the schedules of the words the key guard
selects from its bytes, and then exactly one of `IsSingle` and `IsTriple` holds. -/
def Obligations.MakeKeyLoadsTheKey : Prop :=
  ∀ (key : List Byte) (s : State), s.err = .noError →
    key.length = 8 ∨ key.length = 16 ∨ key.length = 24 →
    ∃ t, callMakeKey (.bytes key) s = .next (.ok (), t) ∧
      t.store = some (loadSets (keyGuard (key.length / 8) (be64 (key.take 8))
        (be64 ((key.drop 8).take 8)) (be64 ((key.drop 16).take 8)))) ∧
      t.err = .noError ∧ t.din = s.din ∧ t.dout = s.dout ∧ t.iv = s.iv ∧
      (isSingle t = true ↔ isTriple t = false)

/-- R140 (a), (b): with a key loaded and no error, encrypting a message and decrypting the result with the
same IV argument gives the message back: without padding for a length that is a multiple of 8, with padding
for every length, in ECB and in CBC. -/
def Obligations.WrapperRoundTrip : Prop :=
  ∀ (s : State) (msg : List Byte) (iv : IvValue) (padding : Bool),
    s.err = .noError → s.store ≠ none → (∃ v, guardIv iv = .ok v) →
    padding = true ∨ msg.length % 8 = 0 →
    ∃ (cipher : List Byte) (t u : State),
      callEncrypt (.bytes msg) iv padding s = .next (.ok cipher, t) ∧
      callDecrypt (.bytes cipher) iv padding t = .next (.ok msg, u) ∧
      cipher.length = (if padding then (pad msg).length else msg.length)

/-- R54, R55: every statement of the host script is the access the table gives it, `cmd v` and `ldkey.w K` for
every value included; a statement whose word decodes runs that command, in every state, and one whose word
does not decode raises ILLCMD outside fail-stop; and each pseudo-instruction is its expansion. That the
command statements agree with `exec` in fail-stop too is the model's choice (log 4), and so are the closed
types of statements and pseudo-instructions (log 6). -/
def Obligations.ScriptStatementsRunTheCommands : Prop :=
  (∀ s : State,
    perform Statement.nop.access s = exec .nop s ∧
    (∀ n : KeyLength, perform (Statement.ldkey n).access s = exec (.ldkey (n.bytes / 8)) s) ∧
    (∀ k : Fin 16, perform (Statement.ldkeyW k).access s = exec (.ldkey k.val) s) ∧
    perform Statement.clrkey.access s = exec .clrkey s ∧
    perform Statement.ecbdec.access s = exec .ecbdec s ∧
    perform Statement.ecbenc.access s = exec .ecbenc s ∧
    perform Statement.cbcdec.access s = exec .cbcdec s ∧
    perform Statement.cbcenc.access s = exec .cbcenc s ∧
    perform Statement.clrerr.access s = exec .clrerr s ∧
    perform Statement.srst.access s = exec .srst s ∧
    (∀ w i, decode w = .ok i → perform (Statement.cmd w).access s = exec i s)) ∧
  (Statement.nop.access = .write 0 0x00 ∧
    (Statement.ldkey .bytes8).access = .write 0 0x11 ∧
    (Statement.ldkey .bytes16).access = .write 0 0x12 ∧
    (Statement.ldkey .bytes24).access = .write 0 0x13 ∧
    (∀ k : Fin 16, (Statement.ldkeyW k).access = .write 0 (0x10 + BitVec.ofNat 64 k.val)) ∧
    Statement.clrkey.access = .write 0 0x20 ∧
    Statement.ecbdec.access = .write 0 0x30 ∧ Statement.ecbenc.access = .write 0 0x31 ∧
    Statement.cbcdec.access = .write 0 0x32 ∧ Statement.cbcenc.access = .write 0 0x33 ∧
    Statement.clrerr.access = .write 0 0x40 ∧ Statement.srst.access = .write 0 0x50 ∧
    (∀ v : Word, (Statement.cmd v).access = .write 0 v)) ∧
  (∀ (v : Word) (s : State), s.err = .noError → (∃ e, decode v = .error e) →
    perform (Statement.cmd v).access s = .next { s with err := .illcmd }) ∧
  (∀ (r : RegName) (v : Word),
    (Statement.wr r v).access = .write r.number v ∧ (Statement.rd r).access = .read r.number) ∧
  (∀ r : Reg, Reg.ofNumber (RegName.named r).number = some r) ∧ (∀ n : Nat, (RegName.bare n).number = n) ∧
  (∀ a b c x v : Word,
    (Pseudo.key8 a).accesses = [.write 2 a, .write 0 0x11] ∧
    (Pseudo.key16 a b).accesses = [.write 2 a, .write 3 b, .write 0 0x12] ∧
    (Pseudo.key24 a b c).accesses = [.write 2 a, .write 3 b, .write 4 c, .write 0 0x13] ∧
    (Pseudo.setiv v).accesses = [.write 7 v] ∧
    (Pseudo.blk .ecbenc x).accesses = blockAccesses 0x31 x ∧
    (Pseudo.blk .ecbdec x).accesses = blockAccesses 0x30 x ∧
    (Pseudo.blk .cbcenc x).accesses = blockAccesses 0x33 x ∧
    (Pseudo.blk .cbcdec x).accesses = blockAccesses 0x32 x ∧
    Pseudo.status.accesses = [.read 1])
end

