-- ==== Sys2Proof/Laws/Bits.lean ====
section
/-! SUPPORT. The small lemmas of `Permute`, `rotl28` and the splits and joins of halves: which bit of the
result is which bit of the argument. -/

namespace Sys2Proof.Machine

/-- The numeral that a list of bits, the most significant first, is. -/
theorem foldl_bits_testBit (bs : List Bool) (acc : Nat) (i : Nat) (h : i < bs.length) :
    (bs.foldl (fun w b => 2 * w + b.toNat) acc).testBit i = bs[bs.length - 1 - i] := by
  induction bs using List.reverseRecOn generalizing i with
  | nil => simp at h
  | append_singleton bs b ih =>
    simp only [List.foldl_append, List.foldl_cons, List.foldl_nil]
    cases i with
    | zero => cases b <;> simp [Nat.testBit_zero]
    | succ i =>
      have hi : i < bs.length := by simpa using h
      rw [Nat.testBit_succ]
      have : (2 * List.foldl (fun w b => 2 * w + b.toNat) acc bs + b.toNat) / 2 =
          List.foldl (fun w b => 2 * w + b.toNat) acc bs := by cases b <;> simp; omega
      rw [this, ih i hi, List.getElem_append_left (by simp; omega)]
      congr 1
      simp; omega

/-- Bit `i` of a permuted value, numbered from the least significant: it is the input bit that the
table's entry `m - i` names (R5). -/
theorem permute_getLsbD {n : Nat} (m : Nat) (v : BitVec n) (t : List Nat) (hm : t.length = m) (i : Nat)
    (h : i < m) : (permute m v t).getLsbD i = dbit v (t[m - 1 - i]'(by omega)) := by
  subst hm
  have e : t.foldl (fun w i => 2 * w + (dbit v i).toNat) 0 =
      (t.map (dbit v)).foldl (fun w b => 2 * w + b.toNat) 0 := by rw [List.foldl_map]
  rw [permute, e, BitVec.getLsbD_ofNat, foldl_bits_testBit _ _ _ (by simpa using h)]
  simp [h]

/-- Two tables in a row: permuting the result of `permute` reads the first table through the second. -/
theorem dbit_permute {n : Nat} (m : Nat) (v : BitVec n) (t : List Nat) (hm : t.length = m) (j : Nat)
    (h1 : 1 ≤ j) (h2 : j ≤ m) : dbit (permute m v t) j = dbit v (t[j - 1]'(by omega)) := by
  rw [dbit, permute_getLsbD m v t hm (m - j) (by omega)]
  congr 2
  omega

theorem length_ip : ip.length = 64 := rfl
theorem length_fp : fp.length = 64 := rfl
theorem length_expansion : expansion.length = 48 := rfl
theorem length_roundPerm : roundPerm.length = 32 := rfl
theorem length_pc1 : pc1.length = 56 := rfl
theorem length_pc2 : pc2.length = 48 := rfl

/-- Which bit a rotation to the left takes, for every distance up to the full width. -/
theorem rotateLeft_getLsbD (x : KeyHalf) (r i : Nat) (hr : r ≤ 28) (hi : i < 28) :
    (x.rotateLeft r).getLsbD i = x.getLsbD ((i + (28 - r)) % 28) := by
  rw [BitVec.getLsbD_rotateLeft]
  by_cases h : r = 28
  · subst h; simp [hi, Nat.mod_eq_of_lt hi]
  rw [show r % 28 = r from Nat.mod_eq_of_lt (by omega)]
  by_cases h : i < r
  · simp only [h, decide_true, cond_true]
    rw [Nat.mod_eq_of_lt (by omega)]; congr 1; omega
  · simp only [h, decide_false, cond_false, hi, decide_true, Bool.true_and]
    rw [show i + (28 - r) = (i - r) + 28 by omega, Nat.add_mod_right, Nat.mod_eq_of_lt (by omega)]

/-- Rotations add up (R63), as long as they do not pass the full width. -/
theorem rotateLeft_rotateLeft (x : KeyHalf) (a b : Nat) (h : a + b ≤ 28) :
    (x.rotateLeft a).rotateLeft b = x.rotateLeft (a + b) := by
  refine BitVec.eq_of_getLsbD_eq fun i hi => ?_
  rw [rotateLeft_getLsbD _ _ _ (by omega) hi, rotateLeft_getLsbD _ _ _ (by omega) (Nat.mod_lt _ (by omega)),
    rotateLeft_getLsbD _ _ _ h hi]
  congr 1; omega

theorem rotateLeft_zero (x : KeyHalf) : x.rotateLeft 0 = x := by
  refine BitVec.eq_of_getLsbD_eq fun i hi => ?_
  rw [rotateLeft_getLsbD _ _ _ (by omega) hi]; congr 1; omega

/-- `rotl28` is the rotation of 28 bits (R6), also by no bit and by all of them. -/
theorem rotl28_eq_rotateLeft (x : KeyHalf) (k : Nat) (h : k ≤ 28) : rotl28 x k = x.rotateLeft k := by
  by_cases h28 : k = 28
  · subst h28
    refine BitVec.eq_of_getLsbD_eq fun i hi => ?_
    rw [rotateLeft_getLsbD x 28 i (by omega) hi]; simp [rotl28, hi, Nat.mod_eq_of_lt hi]
  · rw [rotl28, BitVec.rotateLeft, Nat.mod_eq_of_lt (by omega), BitVec.rotateLeftAux]

/-- The complement of a join is the join of the complements. -/
theorem not_append {n m : Nat} (a : BitVec n) (b : BitVec m) : ~~~(a ++ b) = ~~~a ++ ~~~b := by
  refine BitVec.eq_of_getLsbD_eq fun i hi => ?_
  rw [BitVec.getLsbD_append, BitVec.getLsbD_not, BitVec.getLsbD_append, BitVec.getLsbD_not, BitVec.getLsbD_not]
  split <;> simp [*] <;> omega

/-- `Permute` moves bits and never combines them: the complement comes out as the complement. -/
theorem permute_not {n m : Nat} (v : BitVec n) (t : List Nat) (hm : t.length = m)
    (h : ∀ i ∈ t, 1 ≤ i ∧ i ≤ n) : permute m (~~~v) t = ~~~permute m v t := by
  refine BitVec.eq_of_getLsbD_eq fun i hi => ?_
  rw [permute_getLsbD _ _ _ hm i hi, BitVec.getLsbD_not, permute_getLsbD _ _ _ hm i hi]
  have := h _ (List.getElem_mem (l := t) (n := m - 1 - i) (by omega))
  simp only [dbit, BitVec.getLsbD_not, hi]
  simp; omega

/-- `Permute` respects exclusive or. -/
theorem permute_xor {n m : Nat} (v w : BitVec n) (t : List Nat) (hm : t.length = m) :
    permute m (v ^^^ w) t = permute m v t ^^^ permute m w t := by
  refine BitVec.eq_of_getLsbD_eq fun i hi => ?_
  rw [permute_getLsbD _ _ _ hm i hi, BitVec.getLsbD_xor, permute_getLsbD _ _ _ hm i hi,
    permute_getLsbD _ _ _ hm i hi]
  simp [dbit]

/-- Which bit of the value a bit of one of its bytes is (R31). -/
theorem byteOf_getLsbD (v : Word) (i j : Nat) (h : j < 8) :
    (byteOf v i).getLsbD j = v.getLsbD (56 - 8 * i + j) := by
  simp [byteOf, h]

theorem bytes8_length (v : Word) : (bytes8 v).length = 8 := by simp [bytes8]

theorem bytes8_getElem (v : Word) (i : Nat) (h : i < (bytes8 v).length) : (bytes8 v)[i] = byteOf v i := by
  simp [bytes8]

theorem blocksOf_length (n : Nat) (msg : List Byte) : (blocksOf n msg).length = n := by
  induction n generalizing msg with
  | zero => rfl
  | succ n ih => simp [blocksOf, ih]

theorem bytesOf_length (xs : List Word) : (bytesOf xs).length = 8 * xs.length := by
  induction xs with
  | nil => rfl
  | cons x xs ih =>
    simp only [bytesOf, List.flatMap_cons, List.length_append, List.length_cons] at *
    rw [ih, bytes8_length]; omega

/-- The join of R82 undoes a split into halves, and the halves of a join are the two that were joined. -/
theorem append_extract_halves (y : Word) : y.extractLsb' 32 32 ++ y.extractLsb' 0 32 = y := by
  refine BitVec.eq_of_getLsbD_eq fun i hi => ?_
  rw [BitVec.getLsbD_append, BitVec.getLsbD_extractLsb', BitVec.getLsbD_extractLsb']
  by_cases h : i < 32
  · simp [h]
  · have : i - 32 < 32 := by omega
    simp [h, this, Nat.add_sub_cancel' (Nat.le_of_not_lt h)]

theorem extract_upper_append (a b : Half) : (a ++ b : BitVec (32 + 32)).extractLsb' 32 32 = a := by
  refine BitVec.eq_of_getLsbD_eq fun i hi => ?_
  rw [BitVec.getLsbD_extractLsb', BitVec.getLsbD_append]
  simp [hi]

theorem extract_lower_append (a b : Half) : (a ++ b : BitVec (32 + 32)).extractLsb' 0 32 = b := by
  refine BitVec.eq_of_getLsbD_eq fun i hi => ?_
  rw [BitVec.getLsbD_extractLsb', BitVec.getLsbD_append]
  simp [hi]

end Sys2Proof.Machine
end

