-- ==== Sys2Proof/Laws/Cipher.lean ====
section
/-! SUPPORT. The small lemmas of the key schedule, the rounds and the cascade: which rotation a subkey
reads, how the rounds undo each other, what the cascade is for one set and for three. -/

namespace Sys2Proof.Machine

/-- A subkey of a schedule that starts from halves rotated by `tot`: it reads them rotated by the running
total (R64, R65). -/
theorem subkeys_getElem (rs : List Nat) (c d : KeyHalf) (n tot : Nat) (h : n < rs.length)
    (ht : tot + rs.sum ≤ 28) (h' : n < (subkeys rs (c.rotateLeft tot) (d.rotateLeft tot)).length) :
    (subkeys rs (c.rotateLeft tot) (d.rotateLeft tot))[n] =
      permute 48 (c.rotateLeft (tot + (rs.take (n + 1)).sum) ++
        d.rotateLeft (tot + (rs.take (n + 1)).sum)) pc2 := by
  induction rs generalizing n tot with
  | nil => simp at h
  | cons r rs ih =>
    simp only [List.sum_cons] at ht
    have e : ∀ x : KeyHalf, rotl28 (x.rotateLeft tot) r = x.rotateLeft (tot + r) := fun x => by
      rw [rotl28_eq_rotateLeft _ _ (by omega), rotateLeft_rotateLeft _ _ _ (by omega)]
    cases n with
    | zero => simp [subkeys, e, subkey]
    | succ n =>
      simp only [subkeys, e, List.getElem_cons_succ, List.take_succ_cons, List.sum_cons]
      rw [ih n (tot + r) (by simpa using h) (by omega), Nat.add_assoc]

theorem ks_getElem (k : Word) (n : Nat) (h : n < 16) :
    (ks k)[n] = (subkeys rot (keyHalfC k) (keyHalfD k))[n]'(by simpa [subkeys_length, rot] using h) := rfl

theorem ks_toList (k : Word) : (ks k).toList = subkeys rot (keyHalfC k) (keyHalfD k) := rfl

/-- The rounds of a list of subkeys, entered with the halves exchanged, are undone by the rounds of the
reversed list: the induction of R86 (a), for any list. -/
theorem foldl_feistelRound_reverse (q : List RoundKey) (lr : Half × Half) :
    q.reverse.foldl feistelRound (q.foldl feistelRound lr).swap = lr.swap := by
  induction q generalizing lr with
  | nil => rfl
  | cons k q ih =>
    rw [List.reverse_cons, List.foldl_append, List.foldl_cons (l := q), ih]
    simp [feistelRound]; rfl

theorem bt_encrypt (x : Word) (rk : RoundKeySet) : bt x rk .encrypt = btCore x rk.toList := rfl
theorem bt_decrypt (x : Word) (rk : RoundKeySet) : bt x rk .decrypt = btCore x rk.toList.reverse := rfl

theorem cascade_one (x : Word) (a : RoundKeySet) (dir : Dir) : cascade x (.one a) dir = bt x a dir := by
  cases dir <;> rfl

theorem OneOrThree.toList_length {α : Type} (ws : OneOrThree α) : ws.toList.length = ws.size := by
  cases ws <;> rfl

end Sys2Proof.Machine
end

