-- ==== Sys2Proof/Laws/Decode.lean ====
section
/-! SUPPORT. The decoder over the command word as a number: its fields are quotients and remainders, so a
word with `RSV` = 0 is one of 256. -/

namespace Sys2Proof

/-- `Decode(w)` of R50 with the fields of R45 as arithmetic on the value of the word. -/
theorem decode_eq (w : Word) :
    decode w = if w.toNat / 256 ≠ 0 then .error .reservedBits
      else decodeFields (BitVec.ofNat 4 (w.toNat / 16 % 16)) (BitVec.ofNat 4 (w.toNat % 16)) := by
  have h : (w >>> 8 ≠ 0) ↔ w.toNat / 256 ≠ 0 := by
    rw [Ne, ← BitVec.toNat_inj]; simp [Nat.shiftRight_eq_div_pow]
  have h1 : opField w = BitVec.ofNat 4 (w.toNat / 16 % 16) := by
    apply BitVec.eq_of_toNat_eq; simp [opField, Nat.shiftRight_eq_div_pow]
  have h2 : argField w = BitVec.ofNat 4 (w.toNat % 16) := by
    apply BitVec.eq_of_toNat_eq; simp [argField]
  unfold decode; rw [h1, h2]; simp only [h]

/-- A word with `RSV` = 0 is one of 256 numbers. -/
theorem word_of_rsv_zero (w : Word) (h : w.toNat / 256 = 0) : ∃ n < 256, w = BitVec.ofNat 64 n :=
  ⟨w.toNat, by omega, by simp⟩

/-- A word with a reserved bit set does not decode (R51). -/
theorem decode_of_rsv_ne_zero (w : Word) (h : w.toNat / 256 ≠ 0) : decode w = .error .reservedBits := by
  rw [decode_eq, if_pos h]

end Sys2Proof
end

