-- ==== Sys2Proof/Laws/State.lean ====
section
/-! SUPPORT. What each named update of the state does to each field: the field it writes gets the value,
every other field stays. Later proofs cite these and never unfold an update. -/

namespace Sys2Proof.Machine

@[simp] theorem State.setKey0_key0 (s : State) (v : Word) : (s.setKey0 v).key0 = v := rfl
@[simp] theorem State.setKey0_key1 (s : State) (v : Word) : (s.setKey0 v).key1 = s.key1 := rfl
@[simp] theorem State.setKey0_key2 (s : State) (v : Word) : (s.setKey0 v).key2 = s.key2 := rfl
@[simp] theorem State.setKey0_din (s : State) (v : Word) : (s.setKey0 v).din = s.din := rfl
@[simp] theorem State.setKey0_dout (s : State) (v : Word) : (s.setKey0 v).dout = s.dout := rfl
@[simp] theorem State.setKey0_iv (s : State) (v : Word) : (s.setKey0 v).iv = s.iv := rfl
@[simp] theorem State.setKey0_store (s : State) (v : Word) : (s.setKey0 v).store = s.store := rfl
@[simp] theorem State.setKey0_err (s : State) (v : Word) : (s.setKey0 v).err = s.err := rfl
@[simp] theorem State.setKey0_pending (s : State) (v : Word) : (s.setKey0 v).pending = s.pending := rfl
@[simp] theorem State.setKey0_returned (s : State) (v : Word) : (s.setKey0 v).returned = s.returned := rfl

@[simp] theorem State.setKey1_key0 (s : State) (v : Word) : (s.setKey1 v).key0 = s.key0 := rfl
@[simp] theorem State.setKey1_key1 (s : State) (v : Word) : (s.setKey1 v).key1 = v := rfl
@[simp] theorem State.setKey1_key2 (s : State) (v : Word) : (s.setKey1 v).key2 = s.key2 := rfl
@[simp] theorem State.setKey1_din (s : State) (v : Word) : (s.setKey1 v).din = s.din := rfl
@[simp] theorem State.setKey1_dout (s : State) (v : Word) : (s.setKey1 v).dout = s.dout := rfl
@[simp] theorem State.setKey1_iv (s : State) (v : Word) : (s.setKey1 v).iv = s.iv := rfl
@[simp] theorem State.setKey1_store (s : State) (v : Word) : (s.setKey1 v).store = s.store := rfl
@[simp] theorem State.setKey1_err (s : State) (v : Word) : (s.setKey1 v).err = s.err := rfl
@[simp] theorem State.setKey1_pending (s : State) (v : Word) : (s.setKey1 v).pending = s.pending := rfl
@[simp] theorem State.setKey1_returned (s : State) (v : Word) : (s.setKey1 v).returned = s.returned := rfl

@[simp] theorem State.setKey2_key0 (s : State) (v : Word) : (s.setKey2 v).key0 = s.key0 := rfl
@[simp] theorem State.setKey2_key1 (s : State) (v : Word) : (s.setKey2 v).key1 = s.key1 := rfl
@[simp] theorem State.setKey2_key2 (s : State) (v : Word) : (s.setKey2 v).key2 = v := rfl
@[simp] theorem State.setKey2_din (s : State) (v : Word) : (s.setKey2 v).din = s.din := rfl
@[simp] theorem State.setKey2_dout (s : State) (v : Word) : (s.setKey2 v).dout = s.dout := rfl
@[simp] theorem State.setKey2_iv (s : State) (v : Word) : (s.setKey2 v).iv = s.iv := rfl
@[simp] theorem State.setKey2_store (s : State) (v : Word) : (s.setKey2 v).store = s.store := rfl
@[simp] theorem State.setKey2_err (s : State) (v : Word) : (s.setKey2 v).err = s.err := rfl
@[simp] theorem State.setKey2_pending (s : State) (v : Word) : (s.setKey2 v).pending = s.pending := rfl
@[simp] theorem State.setKey2_returned (s : State) (v : Word) : (s.setKey2 v).returned = s.returned := rfl

@[simp] theorem State.setDin_key0 (s : State) (v : Word) : (s.setDin v).key0 = s.key0 := rfl
@[simp] theorem State.setDin_key1 (s : State) (v : Word) : (s.setDin v).key1 = s.key1 := rfl
@[simp] theorem State.setDin_key2 (s : State) (v : Word) : (s.setDin v).key2 = s.key2 := rfl
@[simp] theorem State.setDin_din (s : State) (v : Word) : (s.setDin v).din = v := rfl
@[simp] theorem State.setDin_dout (s : State) (v : Word) : (s.setDin v).dout = s.dout := rfl
@[simp] theorem State.setDin_iv (s : State) (v : Word) : (s.setDin v).iv = s.iv := rfl
@[simp] theorem State.setDin_store (s : State) (v : Word) : (s.setDin v).store = s.store := rfl
@[simp] theorem State.setDin_err (s : State) (v : Word) : (s.setDin v).err = s.err := rfl
@[simp] theorem State.setDin_pending (s : State) (v : Word) : (s.setDin v).pending = s.pending := rfl
@[simp] theorem State.setDin_returned (s : State) (v : Word) : (s.setDin v).returned = s.returned := rfl

@[simp] theorem State.setDout_key0 (s : State) (v : Word) : (s.setDout v).key0 = s.key0 := rfl
@[simp] theorem State.setDout_key1 (s : State) (v : Word) : (s.setDout v).key1 = s.key1 := rfl
@[simp] theorem State.setDout_key2 (s : State) (v : Word) : (s.setDout v).key2 = s.key2 := rfl
@[simp] theorem State.setDout_din (s : State) (v : Word) : (s.setDout v).din = s.din := rfl
@[simp] theorem State.setDout_dout (s : State) (v : Word) : (s.setDout v).dout = v := rfl
@[simp] theorem State.setDout_iv (s : State) (v : Word) : (s.setDout v).iv = s.iv := rfl
@[simp] theorem State.setDout_store (s : State) (v : Word) : (s.setDout v).store = s.store := rfl
@[simp] theorem State.setDout_err (s : State) (v : Word) : (s.setDout v).err = s.err := rfl
@[simp] theorem State.setDout_pending (s : State) (v : Word) : (s.setDout v).pending = s.pending := rfl
@[simp] theorem State.setDout_returned (s : State) (v : Word) : (s.setDout v).returned = s.returned := rfl

@[simp] theorem State.setIv_key0 (s : State) (v : Word) : (s.setIv v).key0 = s.key0 := rfl
@[simp] theorem State.setIv_key1 (s : State) (v : Word) : (s.setIv v).key1 = s.key1 := rfl
@[simp] theorem State.setIv_key2 (s : State) (v : Word) : (s.setIv v).key2 = s.key2 := rfl
@[simp] theorem State.setIv_din (s : State) (v : Word) : (s.setIv v).din = s.din := rfl
@[simp] theorem State.setIv_dout (s : State) (v : Word) : (s.setIv v).dout = s.dout := rfl
@[simp] theorem State.setIv_iv (s : State) (v : Word) : (s.setIv v).iv = v := rfl
@[simp] theorem State.setIv_store (s : State) (v : Word) : (s.setIv v).store = s.store := rfl
@[simp] theorem State.setIv_err (s : State) (v : Word) : (s.setIv v).err = s.err := rfl
@[simp] theorem State.setIv_pending (s : State) (v : Word) : (s.setIv v).pending = s.pending := rfl
@[simp] theorem State.setIv_returned (s : State) (v : Word) : (s.setIv v).returned = s.returned := rfl

@[simp] theorem State.setStore_key0 (s : State) (v : Option (OneOrThree RoundKeySet)) : (s.setStore v).key0 = s.key0 := rfl
@[simp] theorem State.setStore_key1 (s : State) (v : Option (OneOrThree RoundKeySet)) : (s.setStore v).key1 = s.key1 := rfl
@[simp] theorem State.setStore_key2 (s : State) (v : Option (OneOrThree RoundKeySet)) : (s.setStore v).key2 = s.key2 := rfl
@[simp] theorem State.setStore_din (s : State) (v : Option (OneOrThree RoundKeySet)) : (s.setStore v).din = s.din := rfl
@[simp] theorem State.setStore_dout (s : State) (v : Option (OneOrThree RoundKeySet)) : (s.setStore v).dout = s.dout := rfl
@[simp] theorem State.setStore_iv (s : State) (v : Option (OneOrThree RoundKeySet)) : (s.setStore v).iv = s.iv := rfl
@[simp] theorem State.setStore_store (s : State) (v : Option (OneOrThree RoundKeySet)) : (s.setStore v).store = v := rfl
@[simp] theorem State.setStore_err (s : State) (v : Option (OneOrThree RoundKeySet)) : (s.setStore v).err = s.err := rfl
@[simp] theorem State.setStore_pending (s : State) (v : Option (OneOrThree RoundKeySet)) : (s.setStore v).pending = s.pending := rfl
@[simp] theorem State.setStore_returned (s : State) (v : Option (OneOrThree RoundKeySet)) : (s.setStore v).returned = s.returned := rfl

@[simp] theorem State.setErr_key0 (s : State) (v : Err) : (s.setErr v).key0 = s.key0 := rfl
@[simp] theorem State.setErr_key1 (s : State) (v : Err) : (s.setErr v).key1 = s.key1 := rfl
@[simp] theorem State.setErr_key2 (s : State) (v : Err) : (s.setErr v).key2 = s.key2 := rfl
@[simp] theorem State.setErr_din (s : State) (v : Err) : (s.setErr v).din = s.din := rfl
@[simp] theorem State.setErr_dout (s : State) (v : Err) : (s.setErr v).dout = s.dout := rfl
@[simp] theorem State.setErr_iv (s : State) (v : Err) : (s.setErr v).iv = s.iv := rfl
@[simp] theorem State.setErr_store (s : State) (v : Err) : (s.setErr v).store = s.store := rfl
@[simp] theorem State.setErr_err (s : State) (v : Err) : (s.setErr v).err = v := rfl
@[simp] theorem State.setErr_pending (s : State) (v : Err) : (s.setErr v).pending = s.pending := rfl
@[simp] theorem State.setErr_returned (s : State) (v : Err) : (s.setErr v).returned = s.returned := rfl

@[simp] theorem State.setPending_key0 (s : State) (v : List HostAccess) : (s.setPending v).key0 = s.key0 := rfl
@[simp] theorem State.setPending_key1 (s : State) (v : List HostAccess) : (s.setPending v).key1 = s.key1 := rfl
@[simp] theorem State.setPending_key2 (s : State) (v : List HostAccess) : (s.setPending v).key2 = s.key2 := rfl
@[simp] theorem State.setPending_din (s : State) (v : List HostAccess) : (s.setPending v).din = s.din := rfl
@[simp] theorem State.setPending_dout (s : State) (v : List HostAccess) : (s.setPending v).dout = s.dout := rfl
@[simp] theorem State.setPending_iv (s : State) (v : List HostAccess) : (s.setPending v).iv = s.iv := rfl
@[simp] theorem State.setPending_store (s : State) (v : List HostAccess) : (s.setPending v).store = s.store := rfl
@[simp] theorem State.setPending_err (s : State) (v : List HostAccess) : (s.setPending v).err = s.err := rfl
@[simp] theorem State.setPending_pending (s : State) (v : List HostAccess) : (s.setPending v).pending = v := rfl
@[simp] theorem State.setPending_returned (s : State) (v : List HostAccess) : (s.setPending v).returned = s.returned := rfl

@[simp] theorem State.addReturned_key0 (s : State) (v : Word) : (s.addReturned v).key0 = s.key0 := rfl
@[simp] theorem State.addReturned_key1 (s : State) (v : Word) : (s.addReturned v).key1 = s.key1 := rfl
@[simp] theorem State.addReturned_key2 (s : State) (v : Word) : (s.addReturned v).key2 = s.key2 := rfl
@[simp] theorem State.addReturned_din (s : State) (v : Word) : (s.addReturned v).din = s.din := rfl
@[simp] theorem State.addReturned_dout (s : State) (v : Word) : (s.addReturned v).dout = s.dout := rfl
@[simp] theorem State.addReturned_iv (s : State) (v : Word) : (s.addReturned v).iv = s.iv := rfl
@[simp] theorem State.addReturned_store (s : State) (v : Word) : (s.addReturned v).store = s.store := rfl
@[simp] theorem State.addReturned_err (s : State) (v : Word) : (s.addReturned v).err = s.err := rfl
@[simp] theorem State.addReturned_pending (s : State) (v : Word) : (s.addReturned v).pending = s.pending := rfl
@[simp] theorem State.addReturned_returned (s : State) (v : Word) : (s.addReturned v).returned = s.returned ++ [v] := rfl

@[simp] theorem resetBlock_key0 (s : State) : (resetBlock s).key0 = 0 := rfl
@[simp] theorem resetBlock_key1 (s : State) : (resetBlock s).key1 = 0 := rfl
@[simp] theorem resetBlock_key2 (s : State) : (resetBlock s).key2 = 0 := rfl
@[simp] theorem resetBlock_din (s : State) : (resetBlock s).din = 0 := rfl
@[simp] theorem resetBlock_dout (s : State) : (resetBlock s).dout = 0 := rfl
@[simp] theorem resetBlock_iv (s : State) : (resetBlock s).iv = 0 := rfl
@[simp] theorem resetBlock_store (s : State) : (resetBlock s).store = none := rfl
@[simp] theorem resetBlock_err (s : State) : (resetBlock s).err = .noError := rfl
@[simp] theorem resetBlock_pending (s : State) : (resetBlock s).pending = s.pending := rfl
@[simp] theorem resetBlock_returned (s : State) : (resetBlock s).returned = s.returned := rfl

@[simp] theorem raise_key0 (e : Err) (s : State) : (raise e s).key0 = s.key0 := by
  unfold raise; split <;> rfl
@[simp] theorem raise_key1 (e : Err) (s : State) : (raise e s).key1 = s.key1 := by
  unfold raise; split <;> rfl
@[simp] theorem raise_key2 (e : Err) (s : State) : (raise e s).key2 = s.key2 := by
  unfold raise; split <;> rfl
@[simp] theorem raise_din (e : Err) (s : State) : (raise e s).din = s.din := by
  unfold raise; split <;> rfl
@[simp] theorem raise_dout (e : Err) (s : State) : (raise e s).dout = s.dout := by
  unfold raise; split <;> rfl
@[simp] theorem raise_iv (e : Err) (s : State) : (raise e s).iv = s.iv := by
  unfold raise; split <;> rfl
@[simp] theorem raise_store (e : Err) (s : State) : (raise e s).store = s.store := by
  unfold raise; split <;> rfl
@[simp] theorem raise_pending (e : Err) (s : State) : (raise e s).pending = s.pending := by
  unfold raise; split <;> rfl
@[simp] theorem raise_returned (e : Err) (s : State) : (raise e s).returned = s.returned := by
  unfold raise; split <;> rfl

end Sys2Proof.Machine
end

