-- ==== Sys2Proof/Laws/Ops.lean ====
section
/-! SUPPORT. What each shared operation can do, said once: raising an error, the fail-stop gate, the
no-key check, the meanings, the port. Provers cite these and do not unfold the operations. -/

namespace Sys2Proof.Machine

/-! ## Raising an error and the gates -/

theorem raise_of_noError {s : State} (e : Err) (h : s.err = .noError) : raise e s = s.setErr e := by
  simp [raise, h]

theorem raise_of_failStop {s : State} (e : Err) (h : s.err ≠ .noError) : raise e s = s := by
  simp [raise, h]

theorem raise_err (e : Err) (s : State) : (raise e s).err = if s.err = .noError then e else s.err := by
  unfold raise; split <;> simp_all

theorem unlessFailStop_of_noError {s : State} (act : State → State) (h : s.err = .noError) :
    unlessFailStop act s = act s := by
  simp [unlessFailStop, h]

theorem unlessFailStop_of_failStop {s : State} (act : State → State) (h : s.err ≠ .noError) :
    unlessFailStop act s = s := by
  simp [unlessFailStop, h]

theorem withKey_of_none {s : State} (act : OneOrThree RoundKeySet → State → State) (h : s.store = none) :
    withKey act s = raise .nokey s := by
  simp [withKey, h]

theorem withKey_of_some {s : State} {sets : OneOrThree RoundKeySet}
    (act : OneOrThree RoundKeySet → State → State) (h : s.store = some sets) :
    withKey act s = act sets s := by
  simp [withKey, h]

theorem loadKey_of_legal {kw : Nat} (s : State) (h : legalKeyLength kw = true) :
    loadKey kw s = s.setStore (some (loadSets (keyOperand kw s))) := by
  simp [loadKey, h]

theorem loadKey_of_illegal {kw : Nat} (s : State) (h : legalKeyLength kw = false) :
    loadKey kw s = raise .invkey s := by
  simp [loadKey, h]

theorem legalKeyLength_iff (kw : Nat) : legalKeyLength kw = true ↔ kw = 1 ∨ kw = 2 ∨ kw = 3 := by
  simp [legalKeyLength, or_assoc]

/-! ## The meanings: every command answers a next state, and this is the state -/

/-- The state a command leaves (R111 to R119), fail-stop included. -/
def effect : Instr → State → State
  | .nop, s => s
  | .ldkey kw, s => unlessFailStop (loadKey kw) s
  | .clrkey, s => unlessFailStop forgetKey s
  | .ecbdec, s => unlessFailStop (withKey (ecbStep .decrypt)) s
  | .ecbenc, s => unlessFailStop (withKey (ecbStep .encrypt)) s
  | .cbcdec, s => unlessFailStop (withKey cbcDecStep) s
  | .cbcenc, s => unlessFailStop (withKey cbcEncStep) s
  | .clrerr, s => clearError s
  | .srst, s => resetBlock s

theorem exec_eq (i : Instr) (s : State) : exec i s = .next (effect i s) := by cases i <;> rfl

/-- Every command leaves the model's own fields alone. -/
theorem effect_port (i : Instr) (s : State) :
    (effect i s).pending = s.pending ∧ (effect i s).returned = s.returned := by
  cases i <;> simp only [effect, unlessFailStop, loadKey, forgetKey, withKey, ecbStep, cbcDecStep,
    cbcEncStep, clearError] <;> (repeat' split) <;> simp

/-! ## The port -/

theorem status_eq_of_store_err {s t : State} (hs : t.store = s.store) (he : t.err = s.err) :
    status t = status s := by
  simp [status, triple, keyv, nsets, hs, he]

/-- A read either changes nothing or records ILLREG. -/
theorem hostRead_state (n : Nat) (s : State) : (hostRead n s).2 = s ∨ (hostRead n s).2 = raise .illreg s := by
  unfold hostRead; split <;> simp

/-- In fail-stop a read changes nothing. -/
theorem hostRead_failStop {s : State} (n : Nat) (h : s.err ≠ .noError) : (hostRead n s).2 = s := by
  rcases hostRead_state n s with h' | h'
  · exact h'
  · rw [h', raise_of_failStop _ h]

/-- A write answers a next state. -/
theorem hostWrite_answers (n : Nat) (v : Word) (s : State) : ∃ t, hostWrite n v s = .next t := by
  unfold hostWrite execute
  repeat' split
  all_goals first | exact ⟨_, rfl⟩ | exact ⟨_, exec_eq _ _⟩

/-- Everything a write can do (R37), in the terms of the state it leaves. -/
theorem hostWrite_cases {n : Nat} {v : Word} {s t : State} (h : hostWrite n v s = .next t) :
    (s.err ≠ .noError ∧ n = 0 ∧ v = 0x40 ∧ t = clearError s) ∨
    (s.err ≠ .noError ∧ n = 0 ∧ v = 0x50 ∧ t = resetBlock s) ∨
    (s.err ≠ .noError ∧ ¬(n = 0 ∧ v = 0x40) ∧ ¬(n = 0 ∧ v = 0x50) ∧ t = s) ∨
    (s.err = .noError ∧ n = 0 ∧ (∃ e, decode v = .error e) ∧ t = raise .illcmd s) ∨
    (s.err = .noError ∧ n = 0 ∧ ∃ i, decode v = .ok i ∧ t = effect i s) ∨
    (s.err = .noError ∧ n = 2 ∧ t = s.setKey0 v) ∨
    (s.err = .noError ∧ n = 3 ∧ t = s.setKey1 v) ∨
    (s.err = .noError ∧ n = 4 ∧ t = s.setKey2 v) ∨
    (s.err = .noError ∧ n = 5 ∧ t = s.setDin v) ∨
    (s.err = .noError ∧ n = 7 ∧ t = s.setIv v) ∨
    (s.err = .noError ∧ (n = 1 ∨ n = 6 ∨ 8 ≤ n) ∧ t = raise .illreg s) := by
  by_cases hs : s.err = .noError
  · match n with
    | 0 =>
      simp only [hostWrite, hs, Reg.ofNumber, execute] at h
      cases hd : decode v with
      | error e =>
        rw [hd] at h
        exact .inr (.inr (.inr (.inl ⟨hs, rfl, ⟨e, rfl⟩, by simpa using h.symm⟩)))
      | ok i =>
        rw [hd] at h
        exact .inr (.inr (.inr (.inr (.inl ⟨hs, rfl, i, rfl, by simpa [exec_eq] using h.symm⟩))))
    | 1 | 2 | 3 | 4 | 5 | 6 | 7 => simpa [hostWrite, hs, Reg.ofNumber, eq_comm] using h
    | n + 8 => simpa [hostWrite, hs, Reg.ofNumber, eq_comm] using h
  · rw [hostWrite, if_pos hs] at h
    split at h <;> rename_i h0
    · simp_all [execClrerr, eq_comm]
    · split at h <;> rename_i h1
      · simp_all [execSrst, eq_comm]
      · cases h
        exact .inr (.inr (.inl ⟨hs, h0, h1, rfl⟩))

/-- Every access answers a next state. -/
theorem perform_answers (a : HostAccess) (s : State) : ∃ t, perform a s = .next t := by
  cases a with
  | read n => exact ⟨_, rfl⟩
  | write n v => exact hostWrite_answers n v s
  | reset => exact ⟨_, rfl⟩

/-- Everything one access can do, in the terms of the state it leaves. -/
theorem perform_cases {a : HostAccess} {s t : State} (h : perform a s = .next t) :
    (∃ n, a = .read n ∧ t = (hostRead n s).2.addReturned (hostRead n s).1) ∨
    (∃ n v, a = .write n v ∧ hostWrite n v s = .next t) ∨
    (a = .reset ∧ t = resetBlock s) := by
  cases a with
  | read n => exact .inl ⟨n, rfl, by simpa [perform] using h.symm⟩
  | write n v => exact .inr (.inl ⟨n, v, rfl, h⟩)
  | reset => exact .inr (.inr ⟨rfl, by simpa [perform] using h.symm⟩)

/-- A run of one access more is that access and then the rest. -/
theorem performAll_cons (a : HostAccess) (as : List HostAccess) {s t : State} (h : perform a s = .next t) :
    performAll (a :: as) s = performAll as t := by
  simp [performAll, h]

theorem performAll_append (as bs : List HostAccess) {s t : State} (h : performAll as s = .next t) :
    performAll (as ++ bs) s = performAll bs t := by
  induction as generalizing s with
  | nil => simp_all [performAll]
  | cons a as ih =>
    simp only [performAll, List.cons_append] at h ⊢
    cases hp : perform a s with
    | next u => rw [hp] at h; exact ih h
    | fault r => exact r.rec
    | refused r => rw [hp] at h; cases h

end Sys2Proof.Machine
end

