-- ==== Sys2Proof/Laws/PerInstr.lean ====
section
/-! SUPPORT. What is said of every command as syntax, one lemma for each constructor of `Instr`. The family
`EncodeFits`: the word of a well-formed command has its reserved bits 63:8 at 0 (R45). -/

namespace Sys2Proof.Laws.EncodeFits

/-- The word of a well-formed command is one of the values 0x00 to 0xFF (R45). -/
def Statement (i : Instr) : Prop := i.wf = true → encode i >>> 8 = 0

theorem nop : Statement .nop := fun _ => by decide

theorem ldkey (kw : Nat) : Statement (.ldkey kw) := fun h => by
  have all : ∀ k : Fin 16, encode (.ldkey k.val) >>> 8 = 0 := by decide
  exact all ⟨kw, by simpa [Instr.wf] using h⟩

theorem clrkey : Statement .clrkey := fun _ => by decide

theorem ecbdec : Statement .ecbdec := fun _ => by decide

theorem ecbenc : Statement .ecbenc := fun _ => by decide

theorem cbcdec : Statement .cbcdec := fun _ => by decide

theorem cbcenc : Statement .cbcenc := fun _ => by decide

theorem clrerr : Statement .clrerr := fun _ => by decide

theorem srst : Statement .srst := fun _ => by decide

end Sys2Proof.Laws.EncodeFits
end

