-- ==== Sys2Proof/Laws/Run.lean ====
section
/-! SUPPORT. From accesses to runs: no access looks at the accesses still to come, so a run of the machine
is its accesses one after another. -/

namespace Sys2Proof.Machine

theorem raise_setPending (e : Err) (s : State) (p : List HostAccess) :
    raise e (s.setPending p) = (raise e s).setPending p := by
  by_cases h : s.err = .noError <;> simp [raise, h] <;> rfl

/-- No command looks at the accesses still to come. -/
theorem effect_setPending (i : Instr) (s : State) (p : List HostAccess) :
    effect i (s.setPending p) = (effect i s).setPending p := by
  by_cases h : s.err = .noError
  · cases i with
    | ldkey kw =>
      cases hk : legalKeyLength kw
      · simp [effect, unlessFailStop, h, loadKey_of_illegal _ hk, raise_setPending]
      · simp [effect, unlessFailStop, h, loadKey_of_legal _ hk]; rfl
    | ecbdec | ecbenc | cbcdec | cbcenc =>
      cases hs : s.store <;> simp [effect, unlessFailStop, h, withKey, hs, raise_setPending] <;> rfl
    | nop | clrkey | clrerr | srst => simp [effect, unlessFailStop, h] <;> rfl
  · cases i <;> simp [effect, unlessFailStop, h] <;> rfl

theorem hostRead_setPending (n : Nat) (s : State) (p : List HostAccess) :
    hostRead n (s.setPending p) = ((hostRead n s).1, (hostRead n s).2.setPending p) := by
  unfold hostRead; split <;> simp only [raise_setPending] <;> rfl

theorem hostWrite_setPending {n : Nat} {v : Word} {s t : State} (p : List HostAccess) (h : hostWrite n v s = .next t) :
    hostWrite n v (s.setPending p) = .next (t.setPending p) := by
  rcases hostWrite_cases h with ⟨h1, rfl, rfl, rfl⟩ | ⟨h1, rfl, rfl, rfl⟩ | ⟨h1, h2, h3, rfl⟩ | ⟨h1, rfl, ⟨e, he⟩, rfl⟩ | ⟨h1, rfl, i, hi, rfl⟩ |
    ⟨h1, rfl, rfl⟩ | ⟨h1, rfl, rfl⟩ | ⟨h1, rfl, rfl⟩ | ⟨h1, rfl, rfl⟩ | ⟨h1, rfl, rfl⟩ | ⟨h1, hn, rfl⟩
  · simp [hostWrite, h1]; rfl
  · simp [hostWrite, h1]; rfl
  · simp only [hostWrite, State.setPending_err, if_pos h1, if_neg h2, if_neg h3]
  · simp [hostWrite, h1, Reg.ofNumber, execute, he, raise_setPending]
  · simp [hostWrite, h1, Reg.ofNumber, execute, hi, exec_eq, effect_setPending]
  · simp [hostWrite, h1, Reg.ofNumber]; rfl
  · simp [hostWrite, h1, Reg.ofNumber]; rfl
  · simp [hostWrite, h1, Reg.ofNumber]; rfl
  · simp [hostWrite, h1, Reg.ofNumber]; rfl
  · simp [hostWrite, h1, Reg.ofNumber]; rfl
  · match n with
    | 1 | 6 => simp [hostWrite, h1, Reg.ofNumber, raise_setPending]
    | n + 8 => simp [hostWrite, h1, Reg.ofNumber, raise_setPending]
    | 0 | 2 | 3 | 4 | 5 | 7 => simp at hn

/-- No access looks at the accesses still to come. -/
theorem perform_setPending {a : HostAccess} {s t : State} (p : List HostAccess) (h : perform a s = .next t) :
    perform a (s.setPending p) = .next (t.setPending p) := by
  cases a with
  | read n =>
    simp only [perform, Host.Outcome.next.injEq] at h ⊢
    subst h
    rw [hostRead_setPending]; rfl
  | reset => simp only [perform, Host.Outcome.next.injEq] at h ⊢; subst h; rfl
  | write n v => exact hostWrite_setPending p h

theorem performAll_setPending {as : List HostAccess} {s t : State} (p : List HostAccess) (h : performAll as s = .next t) :
    performAll as (s.setPending p) = .next (t.setPending p) := by
  induction as generalizing s with
  | nil => simp only [performAll, Host.Outcome.next.injEq] at h ⊢; rw [h]
  | cons a as ih =>
    obtain ⟨u, hu⟩ := perform_answers a s
    rw [performAll_cons _ _ hu] at h
    rw [performAll_cons _ _ (perform_setPending p hu), ih h]

/-- A run of the machine over the accesses at the front of its list is those accesses, one after another
(R10): the fact that carries what is proved of `performAll` to `step`. -/
theorem run_pending {as rest : List HostAccess} {s t : State} (hs : s.pending = as ++ rest)
    (h : performAll as s = .next t) : Host.Core.run Sys2Proof.core as.length s = .next (t.setPending rest) := by
  induction as generalizing s t with
  | nil =>
    simp only [performAll, Host.Outcome.next.injEq] at h
    subst h
    simp only [List.nil_append] at hs
    rw [← hs]; rfl
  | cons a as ih =>
    obtain ⟨u, hu⟩ := perform_answers a s
    rw [performAll_cons _ _ hu] at h
    have e : Sys2Proof.core.step s = .next (u.setPending (as ++ rest)) := by
      show nextAccess s = _
      simp only [nextAccess, hs, List.cons_append]
      exact perform_setPending _ hu
    simp only [List.length_cons, Host.Core.run]
    rw [e]
    simp only
    rw [ih (s := u.setPending (as ++ rest)) (t := t.setPending (as ++ rest)) rfl (performAll_setPending _ h)]
    rfl

end Sys2Proof.Machine
end

