-- ==== Sys2Proof/Laws/Stream.lean ====
section
/-! SUPPORT. What the three accesses of one block of a stream do, for each of the four processing commands,
with a key loaded and no error recorded. -/

namespace Sys2Proof.Machine

theorem streamAccesses_cons (w x : Word) (xs : List Word) :
    streamAccesses w (x :: xs) = blockAccesses w x ++ streamAccesses w xs := rfl

theorem streamAccesses_length (w : Word) (xs : List Word) : (streamAccesses w xs).length = 3 * xs.length := by
  induction xs with
  | nil => rfl
  | cons x xs ih => rw [streamAccesses_cons, List.length_append, ih]; simp [blockAccesses]; omega

theorem perform_write_iv {s : State} (v : Word) (he : s.err = .noError) :
    perform (.write 7 v) s = .next (s.setIv v) := by
  simp [perform, hostWrite, he, Reg.ofNumber]

theorem perform_write_din {s : State} (v : Word) (he : s.err = .noError) :
    perform (.write 5 v) s = .next (s.setDin v) := by
  simp [perform, hostWrite, he, Reg.ofNumber]

theorem perform_read_dout (s : State) : perform (.read 6) s = .next (s.addReturned s.dout) := rfl

/-- A write of a word that decodes to `i` leaves the effect of `i`. -/
theorem perform_command {s : State} {w : Word} {i : Instr} (he : s.err = .noError) (hd : decode w = .ok i) :
    perform (.write 0 w) s = .next (effect i s) := by
  simp [perform, hostWrite, he, Reg.ofNumber, execute, hd, exec_eq]

/-- One block of a stream: the command acts on the state with the block in DIN, and DOUT is read (R55). -/
theorem performAll_block {s t : State} {w x : Word} {i : Instr} (he : s.err = .noError)
    (hd : decode w = .ok i) (ht : effect i (s.setDin x) = t) :
    performAll (blockAccesses w x) s = .next (t.addReturned t.dout) := by
  rw [blockAccesses, performAll_cons _ _ (perform_write_din x he),
    performAll_cons _ _ (perform_command (by simpa using he) hd), ht,
    performAll_cons _ _ (perform_read_dout t)]
  rfl

theorem effect_ecbenc {s : State} {sets : OneOrThree RoundKeySet} (he : s.err = .noError)
    (hs : s.store = some sets) : effect .ecbenc s = ecbStep .encrypt sets s := by
  rw [effect, unlessFailStop_of_noError _ he, withKey_of_some _ hs]

theorem effect_ecbdec {s : State} {sets : OneOrThree RoundKeySet} (he : s.err = .noError)
    (hs : s.store = some sets) : effect .ecbdec s = ecbStep .decrypt sets s := by
  rw [effect, unlessFailStop_of_noError _ he, withKey_of_some _ hs]

theorem effect_cbcenc {s : State} {sets : OneOrThree RoundKeySet} (he : s.err = .noError)
    (hs : s.store = some sets) : effect .cbcenc s = cbcEncStep sets s := by
  rw [effect, unlessFailStop_of_noError _ he, withKey_of_some _ hs]

theorem effect_cbcdec {s : State} {sets : OneOrThree RoundKeySet} (he : s.err = .noError)
    (hs : s.store = some sets) : effect .cbcdec s = cbcDecStep sets s := by
  rw [effect, unlessFailStop_of_noError _ he, withKey_of_some _ hs]

end Sys2Proof.Machine
end

