-- ==== Sys2Proof/Tests/Slice0.lean ====
section
/-! SUPPORT. The model's own tests: well-formedness, decoding from words written out by hand, one step for
each command, the port, the pure functions, and a witness for the hypotheses of each obligation. Expected
values are those of `95_test_vectors.md`; the section is named beside each. -/

namespace Sys2Proof.Tests

open Sys2Proof.Machine

/-! ## Small states -/

/-- The first key word of the source's vectors (section 1.1). -/
abbrev keyA : Word := 0x0123456789ABCDEF

/-- The second key word of the source's vectors (section 1.2). -/
abbrev keyB : Word := 0xFEDCBA9876543210

/-- The key word `c` of section 4.1. -/
abbrev keyC : Word := 0x89ABCDEF01234567

/-- The block "hi anoth" (section 1). -/
abbrev hiAnoth : Word := 0x686920616E6F7468

/-- Key words written, no key loaded, every register different from every other. -/
def fresh : State :=
  { State.reset with key0 := keyA, key1 := keyB, key2 := keyC, din := hiAnoth, dout := 0xD0, iv := 0x70 }

/-- The single key of section 1.1 loaded. -/
def keyed : State := { fresh with store := some (loadSets (.one keyA)) }

/-- Fail-stop with error `e`, the key still loaded (section 6.3). -/
def stopped (e : Err) : State := { keyed with err := e }

/-- The next state, if that is the outcome. -/
def nextOf : Host.Outcome State Fault Refusal → Option State
  | .next s => some s
  | .fault _ => none
  | .refused _ => none

/-! ## Well-formedness: the one check, at both sides of its bound (R47) -/

theorem test_wf_ldkey_15 : (Instr.ldkey 15).wf = true := by decide

theorem test_ill_formed_ldkey_16_refused : (Instr.ldkey 16).wf = false := by decide

/-! ## Decoding: the words of R49 written out bit by bit, RSV, OP, ARG -/

theorem test_decode_nop : decode (0#56 ++ 0b0000#4 ++ 0b0000#4) = .ok .nop := by decide

theorem test_decode_ldkey_1 : decode (0#56 ++ 0b0001#4 ++ 0b0001#4) = .ok (.ldkey 1) := by decide

theorem test_decode_ldkey_14 : decode (0#56 ++ 0b0001#4 ++ 0b1110#4) = .ok (.ldkey 14) := by decide

theorem test_decode_clrkey : decode (0#56 ++ 0b0010#4 ++ 0b0000#4) = .ok .clrkey := by decide

theorem test_decode_ecbdec : decode (0#56 ++ 0b0011#4 ++ 0b0000#4) = .ok .ecbdec := by decide

theorem test_decode_ecbenc : decode (0#56 ++ 0b0011#4 ++ 0b0001#4) = .ok .ecbenc := by decide

theorem test_decode_cbcdec : decode (0#56 ++ 0b0011#4 ++ 0b0010#4) = .ok .cbcdec := by decide

theorem test_decode_cbcenc : decode (0#56 ++ 0b0011#4 ++ 0b0011#4) = .ok .cbcenc := by decide

theorem test_decode_clrerr : decode (0#56 ++ 0b0100#4 ++ 0b0000#4) = .ok .clrerr := by decide

theorem test_decode_srst : decode (0#56 ++ 0b0101#4 ++ 0b0000#4) = .ok .srst := by decide

/-- The illegal words of section 6.1, by cause (R51). -/
theorem test_decode_illegal :
    ([0x100, 0x131, 0x8000000000000031, 0xFFFFFFFFFFFFFFFF].all fun w => decode w == .error .reservedBits) ∧
    ([0x60, 0xF0, 0xFF].all fun w => decode w == .error .undefinedOp) ∧
    ([0x01, 0x0F, 0x21, 0x34, 0x38, 0x3F, 0x41, 0x5F].all fun w => decode w == .error .badArg) := by
  decide +kernel

theorem test_table_word : decodeTableWord 64 0x33 = some .cbcenc ∧ decodeTableWord 64 0x34 = none := by
  decide +kernel

/-! ## One step for each command -/

theorem test_nop : exec .nop (stopped .nokey) = .next (stopped .nokey) := rfl

/-- Section 1.2: the 16-byte key loads `[k0, k1, k0]`, STATUS reads 3, the registers stay. -/
theorem test_ldkey_two_words :
    (nextOf (exec (.ldkey 2) fresh)).map (fun t => (t.store, status t, t.key1)) =
      some (some (.three (ks keyA) (ks keyB) (ks keyA)), 0x3, keyB) := by decide +kernel

/-- Program P3, line 15: a bad length keeps the key loaded before; STATUS reads 21. -/
theorem test_ldkey_bad_length :
    (nextOf (exec (.ldkey 4) keyed)).map (fun t => (t.store, status t)) = some (keyed.store, 0x21) := by
  decide +kernel

/-- Program P4, lines 18 to 21: the key goes, DOUT and DIN stay. -/
theorem test_clrkey :
    (nextOf (exec .clrkey keyed)).map (fun t => ([t.key0, t.key1, t.key2, t.din, t.dout], status t)) =
      some ([0, 0, 0, hiAnoth, 0xD0], 0x0) := by decide +kernel

/-- Section 1.1, block 1, decrypted. -/
theorem test_ecbdec :
    (nextOf (exec .ecbdec { keyed with din := 0x2D3820D2963F9706 })).map (fun t => (t.dout, t.din, t.iv)) =
      some (hiAnoth, 0x2D3820D2963F9706, 0x70) := by decide +kernel

/-- Section 1.1, block 1. -/
theorem test_ecbenc :
    (nextOf (exec .ecbenc keyed)).map (fun t => (t.dout, t.din, t.iv)) =
      some (0x2D3820D2963F9706, hiAnoth, 0x70) := by decide +kernel

/-- Program P3, line 2: no key, NOKEY, DOUT stays. -/
theorem test_ecbenc_no_key :
    (nextOf (exec .ecbenc fresh)).map (fun t => (t.dout, status t)) = some (0xD0, 0x30) := by decide +kernel

/-- Section 5.4, row 4: the output is mixed with the old IV, and IV becomes the block consumed. -/
theorem test_cbcdec :
    (nextOf (exec .cbcdec { keyed with iv := 0x099B00609EA33B3F })).map (fun t => (t.dout, t.iv)) =
      some (0x6D320081FBE5B5C6, hiAnoth) := by decide +kernel

/-- Section 1.3, block 2. -/
theorem test_cbcenc :
    (nextOf (exec .cbcenc { keyed with din := 0x657220776F726C64, iv := 0x2D3820D2963F9706 })).map
      (fun t => (t.dout, t.iv, t.din)) =
      some (0x21D36CB1E97BCA5C, 0x21D36CB1E97BCA5C, 0x657220776F726C64) := by decide +kernel

theorem test_clrerr : exec .clrerr (stopped .illcmd) = .next keyed := rfl

theorem test_srst : exec .srst (stopped .illcmd) = .next State.reset := rfl

/-- Section 6.3: in fail-stop a processing command does nothing. -/
theorem test_failstop_ignores_command : exec .ecbdec (stopped .illcmd) = .next (stopped .illcmd) := rfl

/-! ## The port -/

/-- Section 6.2: every register number, from a state without error. -/
theorem test_reads :
    [0, 1, 2, 3, 4, 5, 6, 7, 8, 1000].map (fun n => ((hostRead n fresh).1, (hostRead n fresh).2.err)) =
      [(0, .illreg), (0, .noError), (0, .illreg), (0, .illreg), (0, .illreg), (hiAnoth, .noError),
        (0xD0, .noError), (0x70, .noError), (0, .illreg), (0, .illreg)] := by decide +kernel

/-- Section 6.2: every register number but CMD, what is stored and what is recorded. -/
theorem test_writes :
    [1, 2, 3, 4, 5, 6, 7, 8, 1000].map (fun n => nextOf (hostWrite n 0x55 State.reset)) =
      [some { State.reset with err := .illreg }, some { State.reset with key0 := 0x55 },
        some { State.reset with key1 := 0x55 }, some { State.reset with key2 := 0x55 },
        some { State.reset with din := 0x55 }, some { State.reset with err := .illreg },
        some { State.reset with iv := 0x55 }, some { State.reset with err := .illreg },
        some { State.reset with err := .illreg }] := by decide +kernel

/-- Section 6.3: a word that is not exactly CLRERR does not leave fail-stop. -/
theorem test_failstop_exact_words :
    hostWrite 0 0x140 (stopped .illcmd) = .next (stopped .illcmd) ∧
    hostWrite 0 0x40 (stopped .illcmd) = .next keyed := ⟨rfl, rfl⟩

/-- A word placed by `withFetchWord` is what the first step after reset runs. -/
theorem test_first_step_after_reset :
    nextOf (step (State.reset.withFetchWord 64 0x31)) = some { State.reset with err := .nokey } := by
  decide +kernel

/-! ## The pure functions -/

/-- Section 2.1: the first, the middle and the last subkey of the traced key. -/
theorem test_subkeys :
    (ks 0x133457799BBCDFF1)[0] = 0x1B02EFFC7072 ∧ (ks 0x133457799BBCDFF1)[8] = 0xE0DBEBEDE781 ∧
    (ks 0x133457799BBCDFF1)[15] = 0xCB3D8B0E17F5 := by decide +kernel

/-- Section 3.3: the whole-table rows of IP, FP, E and P. -/
theorem test_permutations :
    permute 64 0x0123456789ABCDEF#64 ip = 0xCC00CCFFF0AAF0AA ∧
    permute 64 0x0123456789ABCDEF#64 fp = 0xFF330FAA00330FAA ∧
    permute 48 0x12345678#32 expansion = 0x0A41A82AC3F0 ∧
    permute 32 0x12345678#32 roundPerm = 0x6E34140E := by decide +kernel

/-- Section 3.4, the rows `000001` and `000010`: the low bit of a group is a row bit. -/
theorem test_sboxes :
    sboxes.map (fun t => (sbox t 0b000001).toNat) = [0, 3, 13, 13, 14, 10, 13, 1] ∧
    sboxes.map (fun t => (sbox t 0b000010).toNat) = [4, 1, 0, 13, 12, 1, 11, 2] := by decide +kernel

/-- Section 3.5, the last row. -/
theorem test_feistel : feistel 0x12345678 0x9ABCDEF01234 = 0x7AFDB75C := by decide +kernel

/-- Section 4.1: the rows of the 24-byte keys, one for each rule that returns. -/
theorem test_keyGuard :
    keyGuard 3 keyA keyB keyB = .one keyA ∧ keyGuard 3 keyA keyA keyB = .one keyB ∧
    keyGuard 3 keyA keyB keyA = .three keyA keyB keyA ∧
    keyGuard 3 keyA keyB keyC = .three keyA keyB keyC ∧
    keyGuard 2 keyA 0x0022446688AACCEE keyC = .three keyA 0x0022446688AACCEE keyA := by decide +kernel

/-- Section 4.2: three different key words, both directions on the plaintext. -/
theorem test_cascade :
    cascade hiAnoth (loadSets (.three keyA keyB keyC)) .encrypt = 0xC5FABD99AC8C4007 ∧
    cascade hiAnoth (loadSets (.three keyA keyB keyC)) .decrypt = 0xD9F1CB93B6FD4298 := by decide +kernel

/-- Section 7: the padding of one byte, and the removal cases decided by D20 with a damaged pad. -/
theorem test_padding :
    pad [0x61] = [0x61, 7, 7, 7, 7, 7, 7, 7] ∧ unpad [] = [] ∧
    unpad [0x11, 0x22, 0] = [0x11, 0x22, 0] ∧ unpad [0x11, 0x22, 0xFF] = [] ∧
    unpad [0x11, 0x22, 0x33, 0xAA, 0x02] = [0x11, 0x22, 0x33] := by decide +kernel

/-- Section 7: both ends of the range of an integer IV. -/
theorem test_guardIv :
    guardIv (.int (2 ^ 64 - 1)) = .ok (some 0xFFFFFFFFFFFFFFFF) ∧
    guardIv (.int (2 ^ 64)) = .error .invalidIv ∧ guardIv (.int (-1)) = .error .invalidIv := by
  decide +kernel

/-! ## Witnesses: what meets the hypotheses of each obligation, named after it -/

theorem witness_DecodeEncodeAgree : (Instr.ldkey 15).wf = true ∧ decode 0x1F = .ok (.ldkey 15) := by
  decide +kernel

theorem witness_IllegalCommandWordRaisesIllcmd :
    (∃ e, decode 0x34 = .error e) ∧ keyed.err = .noError := ⟨⟨.badArg, by decide⟩, rfl⟩

theorem witness_StepRunsDecodedCommand :
    ({ keyed with pending := [.write 0 0x31, .read 6] } : State).pending = .write 0 0x31 :: [.read 6] ∧
    decode 0x31 = .ok .ecbenc := ⟨rfl, by decide⟩

theorem witness_StepTakesOneAccess :
    keyed.pending = [] ∧
    ({ keyed with pending := [.read 7, .reset] } : State).pending = .read 7 :: [.reset] ∧
    step { keyed with pending := [.read 7, .reset] } =
      .next { keyed with pending := [.reset], returned := [0x70] } := ⟨rfl, rfl, rfl⟩

theorem witness_PlacedCommandRunsNext : decode 0x50 = .ok .srst := by decide

theorem witness_IllegalAccessRule :
    ((8 : Nat) = 0 ∨ (8 : Nat) = 2 ∨ (8 : Nat) = 3 ∨ (8 : Nat) = 4 ∨ 8 ≤ 8) ∧
    ((6 : Nat) = 1 ∨ (6 : Nat) = 6 ∨ 8 ≤ 6) ∧
    ((7 : Nat) = 1 ∨ (7 : Nat) = 5 ∨ (7 : Nat) = 6 ∨ (7 : Nat) = 7) ∧
    hostWrite 7 0x1 (stopped .illreg) = .next (stopped .illreg) ∧ (stopped .illreg).err = .illreg :=
  ⟨by decide, by decide, by decide, rfl, rfl⟩

theorem witness_StatusLayout :
    (status { fresh with store := some (loadSets (.three keyA keyB keyC)) }).getLsbD 1 = true := by
  decide +kernel

theorem witness_RaiseRule :
    (decode 0x41).toOption = none ∧ keyed.err = .noError ∧ ¬(0 = 1 ∨ 0 = 2 ∨ 0 = 3) ∧ ¬(4 = 1 ∨ 4 = 2 ∨ 4 = 3) ∧
    fresh.err = .noError ∧ nsets fresh = 0 ∧ ((6 : Nat) = 1 ∨ (6 : Nat) = 6 ∨ 8 ≤ 6) ∧
    ((4 : Nat) = 0 ∨ (4 : Nat) = 2 ∨ (4 : Nat) = 3 ∨ (4 : Nat) = 4 ∨ 8 ≤ 4) := by decide +kernel

theorem witness_FailStopRule :
    (stopped .nokey).err ≠ .noError ∧ ¬((0 : Nat) = 0 ∧ (0x41 : Word) = 0x40) ∧
    ¬((0 : Nat) = 0 ∧ (0x41 : Word) = 0x50) ∧ ¬((1 : Nat) = 0 ∧ (0x40 : Word) = 0x40) := by decide +kernel

theorem witness_CommandsIgnoredInFailStop :
    (stopped .invkey).err ≠ .noError ∧ Instr.ldkey 1 ≠ .clrerr ∧ Instr.ldkey 1 ≠ .srst := by decide +kernel

theorem witness_ErrorStaysThroughEveryRun :
    (stopped .nokey).err ≠ .noError ∧ (∀ a ∈ [HostAccess.write 2 0x1, .write 0 0x41], endsFailStop a = false) ∧
    performAll [.write 2 0x1, .write 0 0x41] (stopped .nokey) = .next (stopped .nokey) :=
  ⟨by decide, by simp [endsFailStop], rfl⟩

/-- The first error is recorded by an access, and cleared by another. -/
theorem witness_FirstErrorWins :
    perform (.write 6 0x1) keyed = .next (stopped .illreg) ∧ (stopped .illreg).err ≠ keyed.err ∧
    perform .reset (stopped .illreg) = .next State.reset ∧ State.reset.err ≠ (stopped .illreg).err :=
  ⟨rfl, by decide, rfl, by decide⟩

/-- One state and write for each clause; INVKEY at the bound of the legal lengths, ILLREG at both its ends. -/
theorem witness_OrderOfChecks :
    (hostWrite 1 0x40 (stopped .illcmd) = .next (stopped .illcmd) ∧ (stopped .illcmd).err ≠ .noError ∧
      endsFailStop (.write 1 0x40) = false) ∧
    keyed.err = .noError ∧
    hostWrite 1 0x40 keyed = .next (stopped .illreg) ∧ hostWrite 8 0x40 keyed = .next (stopped .illreg) ∧
    hostWrite 0 0x41 keyed = .next (stopped .illcmd) ∧ hostWrite 0 0x14 keyed = .next (stopped .invkey) ∧
    hostWrite 0 0x33 fresh = .next { fresh with err := .nokey } :=
  ⟨⟨rfl, by decide, by decide⟩, rfl, rfl, rfl, rfl, rfl, rfl⟩

theorem witness_LdkeyLoadsTheKey :
    fresh.err = .noError ∧ ((1 : Nat) = 1 ∨ (1 : Nat) = 2 ∨ (1 : Nat) = 3) ∧
    ((3 : Nat) = 1 ∨ (3 : Nat) = 2 ∨ (3 : Nat) = 3) ∧
    exec (.ldkey 3) fresh = .next { fresh with store := some (loadSets (keyGuard 3 keyA keyB keyC)) } ∧
    (∃ t u, exec (.ldkey 1) fresh = .next t ∧
      exec (.ldkey 1) { fresh with key1 := 0x1, key2 := 0x2 } = .next u) ∧
    (∃ t u, exec (.ldkey 2) fresh = .next t ∧ exec (.ldkey 2) { fresh with key2 := 0x2 } = .next u) ∧
    (0 < 16 ∧ ¬((0 : Nat) = 1 ∨ (0 : Nat) = 2 ∨ (0 : Nat) = 3)) ∧
    (4 < 16 ∧ ¬((4 : Nat) = 1 ∨ (4 : Nat) = 2 ∨ (4 : Nat) = 3)) ∧
    (15 < 16 ∧ ¬((15 : Nat) = 1 ∨ (15 : Nat) = 2 ∨ (15 : Nat) = 3)) :=
  ⟨rfl, by decide, by decide, rfl, ⟨_, _, rfl, rfl⟩, ⟨_, _, rfl, rfl⟩, by decide, by decide, by decide⟩

theorem witness_ClrkeyForgetsTheKey :
    keyed.err = .noError ∧
    exec .clrkey keyed = .next { keyed with key0 := 0, key1 := 0, key2 := 0, store := none } ∧
    (Instr.cbcenc = .ecbdec ∨ Instr.cbcenc = .ecbenc ∨ Instr.cbcenc = .cbcdec ∨ Instr.cbcenc = .cbcenc) :=
  ⟨rfl, rfl, by decide⟩

theorem witness_EcbCommands :
    keyed.err = .noError ∧ keyed.store = some (loadSets (.one keyA)) ∧ fresh.err = .noError ∧
    fresh.store = none ∧
    (∃ t, exec .ecbdec keyed = .next t) ∧ (∃ t, exec .ecbenc keyed = .next t) :=
  ⟨rfl, rfl, rfl, rfl, ⟨_, rfl⟩, ⟨_, rfl⟩⟩

theorem witness_CbcCommands :
    keyed.err = .noError ∧ keyed.store = some (loadSets (.one keyA)) ∧ fresh.err = .noError ∧
    fresh.store = none ∧ ({ keyed with iv := 0 } : State).err = .noError ∧
    ({ keyed with iv := 0 } : State).iv = 0 ∧
    (∃ t u, exec .cbcenc { keyed with iv := 0 } = .next t ∧ exec .ecbenc { keyed with iv := 0 } = .next u) ∧
    (∃ t u, exec .cbcdec { keyed with iv := 0 } = .next t ∧ exec .ecbdec { keyed with iv := 0 } = .next u) ∧
    (∃ t u, exec .cbcdec keyed = .next t ∧ exec .cbcdec t = .next u) ∧
    (∃ t u, exec .cbcenc keyed = .next t ∧ exec .cbcenc t = .next u) :=
  ⟨rfl, rfl, rfl, rfl, rfl, rfl, ⟨_, _, rfl, rfl⟩, ⟨_, _, rfl, rfl⟩, ⟨_, _, rfl, rfl⟩, ⟨_, _, rfl, rfl⟩⟩

/-- One access for each column of the table that changes that column. -/
theorem witness_WhoWritesWhat :
    (perform (.write 2 0x1) keyed = .next { keyed with key0 := 0x1 } ∧ (0x1 : Word) ≠ keyed.key0) ∧
    (perform (.write 3 0x1) keyed = .next { keyed with key1 := 0x1 } ∧ (0x1 : Word) ≠ keyed.key1) ∧
    (perform (.write 4 0x1) keyed = .next { keyed with key2 := 0x1 } ∧ (0x1 : Word) ≠ keyed.key2) ∧
    (perform (.write 5 0x1) keyed = .next { keyed with din := 0x1 } ∧ (0x1 : Word) ≠ keyed.din) ∧
    (perform (.write 0 0x50) keyed = .next State.reset ∧ State.reset.dout ≠ keyed.dout) ∧
    (perform (.write 7 0x1) keyed = .next { keyed with iv := 0x1 } ∧ (0x1 : Word) ≠ keyed.iv) ∧
    (perform .reset keyed = .next State.reset ∧ State.reset.store ≠ keyed.store) :=
  ⟨⟨rfl, by decide⟩, ⟨rfl, by decide⟩, ⟨rfl, by decide⟩, ⟨rfl, by decide⟩, ⟨rfl, by decide⟩,
    ⟨rfl, by decide⟩, ⟨rfl, nofun⟩⟩

/-- The invariant of the store with a key loaded, and a step. -/
theorem witness_StoreInvariantKept :
    StoreFromKeyWords keyed ∧ step keyed = .next keyed :=
  ⟨fun sets h => .inl ⟨keyA, by simpa [keyed, loadSets, OneOrThree.map, eq_comm] using h⟩, rfl⟩

theorem witness_PermuteReadsTheTable :
    (∀ i ∈ expansion, 1 ≤ i ∧ i ≤ 32) ∧ 47 < expansion.length := by decide +kernel

theorem witness_ByteOrderRule : ([1, 2, 3, 4, 5, 6, 7, 8] : List Byte).length = 8 ∧ 7 < (bytes8 keyA).length := by
  decide +kernel

theorem witness_SubkeyInClosedForm : 15 < 16 := by decide

theorem witness_ScheduleOfComplement : 15 < 16 := by decide

/-- Section 2.4: one key for each of the four pairs of halves. -/
theorem witness_KeysWithEqualSubkeys :
    (keyHalfC 0x0101010101010101 = 0 ∧ keyHalfD 0x0101010101010101 = 0) ∧
    (keyHalfC 0xFEFEFEFEFEFEFEFE = 0xFFFFFFF ∧ keyHalfD 0xFEFEFEFEFEFEFEFE = 0xFFFFFFF) ∧
    (keyHalfC 0xE0E0E0E0F1F1F1F1 = 0xFFFFFFF ∧ keyHalfD 0xE0E0E0E0F1F1F1F1 = 0) ∧
    (keyHalfC 0x1F1F1F1F0E0E0E0E = 0 ∧ keyHalfD 0x1F1F1F1F0E0E0E0E = 0xFFFFFFF) := by decide +kernel

theorem witness_FpIsTheInverseOfIp :
    ([] : List RoundKey).foldl feistelRound (splitIP 0x0123456789ABCDEF) = (0xCC00CCFF, 0xF0AAF0AA) ∧
    1 ≤ 1 ∧ 1 ≤ 64 ∧ 1 ≤ 64 ∧ 64 ≤ 64 := by decide +kernel

theorem witness_LastRoundIsNotSwapped :
    ([] : List RoundKey).foldl feistelRound (splitIP 0x0123456789ABCDEF) = (0xCC00CCFF, 0xF0AAF0AA) := by
  decide +kernel

theorem witness_EqualSubkeysSelfInverse :
    ∀ (m n : Nat) (hm : m < 16) (hn : n < 16),
      (Vector.replicate 16 (0 : RoundKey))[m] = (Vector.replicate 16 (0 : RoundKey))[n] := by
  intro m n hm hn; simp

/-- A key for each row of R92. -/
theorem witness_KeyGuardOutcomes :
    keyA = keyA ∧ keyB ≠ keyA ∧ (keyB ≠ keyA ∧ keyA = keyA) ∧ (keyB ≠ keyC ∧ keyB ≠ keyA) := by decide

/-- All eight parity bits, and one of them. -/
theorem witness_DegenerateKeysSameFunction :
    ((0x0101010101010101 : Word) ≠ 0 ∧ (0x0101010101010101 : Word) &&& 0xFEFEFEFEFEFEFEFE = 0 ∧
      keyB ≠ keyA ^^^ 0x0101010101010101) ∧
    ((0x1 : Word) ≠ 0 ∧ (0x1 : Word) &&& 0xFEFEFEFEFEFEFEFE = 0 ∧ keyB ≠ keyA ^^^ 0x1) := by decide

/-- Section 5.1 and 5.2: the message with a repeated block, and the two initial values. -/
theorem witness_ChainingDiffuses :
    ([hiAnoth, keyB, hiAnoth] : List Word)[0]? = [hiAnoth, keyB, hiAnoth][2]? ∧
    (0x0123456789ABCDEF : Word) ≠ 0x0123456789ABCDEE ∧ 2 < [hiAnoth, keyB, hiAnoth].length ∧
    [hiAnoth, keyB, hiAnoth] ≠ [] := by decide +kernel

theorem witness_StreamsComputeTheSequences :
    keyed.err = .noError ∧ keyed.store = some (loadSets (.one keyA)) ∧
    ({ keyed with pending := streamAccesses 0x31 [hiAnoth] ++ [.reset] } : State).pending =
      streamAccesses 0x31 [hiAnoth] ++ [.reset] ∧
    ({ keyed with pending := streamAccesses 0x30 [hiAnoth] ++ [] } : State).pending =
      streamAccesses 0x30 [hiAnoth] ++ [] ∧
    ({ keyed with pending := .write 7 keyB :: (streamAccesses 0x33 [hiAnoth] ++ []) } : State).pending =
      .write 7 keyB :: (streamAccesses 0x33 [hiAnoth] ++ []) ∧
    ({ keyed with pending := .write 7 keyB :: (streamAccesses 0x32 [hiAnoth] ++ []) } : State).pending =
      .write 7 keyB :: (streamAccesses 0x32 [hiAnoth] ++ []) := ⟨rfl, rfl, rfl, rfl, rfl, rfl⟩

/-- The same registers under two different keys. -/
theorem witness_KeysCannotBeRead :
    let other : State := { keyed with key0 := keyC, store := some (loadSets (.one keyC)) }
    other.din = keyed.din ∧ other.dout = keyed.dout ∧ other.iv = keyed.iv ∧ other.err = keyed.err ∧
      nsets other = nsets keyed :=
  ⟨rfl, rfl, rfl, rfl, by simp [nsets, keyed, loadSets, OneOrThree.map, OneOrThree.size]⟩

/-- Two states with different key registers, and a run that writes one of them and no LDKEY. -/
theorem witness_KeyRegistersUnseenUntilLdkey :
    let other : State := { keyed with key0 := keyC }
    (∀ a ∈ [HostAccess.write 3 0x1, .read 5], loadsKey a = false) ∧ SameButKeyRegisters keyed other ∧
    (∃ t, performAll [.write 3 0x1, .read 5] keyed = .next t) ∧
    (∃ t, performAll [.write 3 0x1, .read 5] other = .next t) :=
  ⟨by simp [loadsKey], ⟨rfl, rfl, rfl, rfl, rfl, rfl, rfl⟩, ⟨_, rfl⟩, ⟨_, rfl⟩⟩

/-- A byte string of 8 and of 7 bytes, and the integers at both ends of the range and just outside it. -/
theorem witness_GuardIvRule :
    ([1, 2, 3, 4, 5, 6, 7, 8] : List Byte).length = 8 ∧ ([1, 2, 3, 4, 5, 6, 7] : List Byte).length ≠ 8 ∧
    (0 ≤ (0 : Int) ∧ (0 : Int) < 2 ^ 64) ∧ (0 ≤ (2 ^ 64 - 1 : Int) ∧ (2 ^ 64 - 1 : Int) < 2 ^ 64) ∧
    (-1 : Int) < 0 ∧ (2 : Int) ^ 64 ≤ 2 ^ 64 := by decide

theorem witness_FailingCallsTouchNothing :
    (∀ b, HostValue.bytes [1, 2, 3, 4, 5, 6, 7] = .bytes b → b.length ≠ 8 ∧ b.length ≠ 16 ∧ b.length ≠ 24) ∧
    ([1, 2, 3] : List Byte).length % 8 ≠ 0 ∧ guardIv (.bytes [1]) = .error .invalidIv ∧
    ([] : List Byte).length % 8 = 0 :=
  ⟨fun b h => by cases h; decide, by decide, rfl, rfl⟩

theorem witness_MakeKeyLoadsTheKey :
    fresh.err = .noError ∧ (bytes8 keyA).length = 8 ∧ (bytes8 keyA ++ bytes8 keyB).length = 16 ∧
    (bytes8 keyA ++ bytes8 keyB ++ bytes8 keyC).length = 24 := by decide +kernel

/-- One message for each alternative: eleven bytes with padding, eight without; ECB and CBC. -/
theorem witness_WrapperRoundTrip :
    keyed.err = .noError ∧ keyed.store ≠ none ∧ guardIv .absent = .ok none ∧
    guardIv (.bytes (bytes8 keyA)) = .ok (some (be64 (bytes8 keyA))) ∧
    (true = true ∨ (List.replicate 11 (0x61 : Byte)).length % 8 = 0) ∧
    (false = true ∨ (List.replicate 8 (0x61 : Byte)).length % 8 = 0) :=
  ⟨rfl, nofun, rfl, rfl, .inl rfl, .inr rfl⟩

theorem witness_ScriptStatementsRunTheCommands :
    decode 0x10 = .ok (.ldkey 0) ∧ keyed.err = .noError ∧ ∃ e, decode 0xFF = .error e :=
  ⟨by decide, rfl, .undefinedOp, by decide⟩

end Sys2Proof.Tests
end

section
/-! The formula of R5: the value of `Permute`, first as the numeral of the bits it reads, then as the sum of
those bits at their weights. -/

namespace Sys2Proof.Machine

/-- A bit in DES numbering, in the shift and mask form of R5. -/
theorem dbit_toNat {n : Nat} (v : BitVec n) (i : Nat) :
    (dbit v i).toNat = v.toNat >>> (n - i) &&& 1 := by
  rw [dbit, BitVec.getLsbD, Nat.toNat_testBit, Nat.and_one_is_mod, Nat.shiftRight_eq_div_pow]

/-- A table of `m` entries reads a numeral of at most `m` bits. -/
theorem foldl_dbit_lt {n : Nat} (v : BitVec n) (t : List Nat) :
    t.foldl (fun w i => 2 * w + (dbit v i).toNat) 0 < 2 ^ t.length := by
  induction t using List.reverseRecOn with
  | nil => simp
  | append_singleton t i ih =>
    have hbit := Bool.toNat_le (dbit v i)
    simp only [List.foldl_append, List.foldl_cons, List.foldl_nil, List.length_append,
      List.length_singleton, Nat.pow_succ]
    omega

/-- `permute` into the width of its table loses no bit of the numeral it reads. -/
theorem permute_toNat {n : Nat} (v : BitVec n) (t : List Nat) :
    (permute t.length v t).toNat = t.foldl (fun w i => 2 * w + (dbit v i).toNat) 0 := by
  rw [permute, BitVec.toNat_ofNat, Nat.mod_eq_of_lt (foldl_dbit_lt v t)]

/-- Reading a table from the most significant bit down adds each bit at its weight below what was read
before. -/
theorem foldl_dbit_eq_sum {n : Nat} (v : BitVec n) (t : List Nat) (acc : Nat) :
    t.foldl (fun w i => 2 * w + (dbit v i).toNat) acc = acc <<< t.length +
      ((List.range t.length).map fun j =>
        (dbit v (t.getD j 0)).toNat <<< (t.length - (j + 1))).sum := by
  induction t generalizing acc with
  | nil => simp
  | cons i t ih =>
    have hshift : (2 * acc + (dbit v i).toNat) <<< t.length =
        acc <<< (t.length + 1) + (dbit v i).toNat <<< t.length := by
      simp only [Nat.shiftLeft_eq]; ring
    rw [List.foldl_cons, ih, hshift, List.length_cons, List.range_succ_eq_map, List.map_cons, List.sum_cons,
      List.map_map, Nat.add_assoc]
    simp [Function.comp_def]

end Sys2Proof.Machine

open Sys2Proof.Machine

/-- Settles O29: the bits are those of `dbit_permute`, and the numeral that `permute` reads is the sum of
R5's formula. -/
theorem permuteReadsTheTable : Obligations.PermuteReadsTheTable := by
  intro n v t _
  refine ⟨fun j h => dbit_permute t.length v t rfl (j + 1) (by omega) h, ?_⟩
  rw [permute_toNat, foldl_dbit_eq_sum, Nat.zero_shiftLeft, Nat.zero_add]
  simp only [dbit_toNat]
end

section
/-! STATUS and its key fields (R17) where no key is loaded (R20), and the reset values of R22. -/

namespace Sys2Proof.Machine

theorem nsets_of_store_none {s : State} (h : s.store = none) : nsets s = 0 := by
  rw [nsets, h]

theorem keyv_of_store_none {s : State} (h : s.store = none) : keyv s = false := by
  rw [keyv, nsets_of_store_none h]; rfl

theorem triple_of_store_none {s : State} (h : s.store = none) : triple s = false := by
  rw [triple, nsets_of_store_none h]; rfl

/-- With no key, STATUS shows the error code alone (R17). -/
theorem status_of_store_none {s : State} (h : s.store = none) :
    status s = s.err.code.setWidth 64 <<< 4 := by
  rw [status, triple_of_store_none h, keyv_of_store_none h]; simp

end Sys2Proof.Machine

open Sys2Proof.Machine

/-- Settles O13: the registers are the reset state's own fields; the views of the store and of `ERR` are
those of a state with no key. -/
theorem resetState : Obligations.ResetState := by
  have hstore : State.reset.store = none := rfl
  have hstatus : status State.reset = 0 := by rw [status_of_store_none hstore]; rfl
  exact ⟨rfl, rfl, rfl, rfl, rfl, rfl, nsets_of_store_none hstore, hstore, rfl,
    keyv_of_store_none hstore, triple_of_store_none hstore, hstatus⟩
end

section
/-! The rules R36 to R38 of the port: what a register number selects, and which access records ILLREG. -/

namespace Sys2Proof.Machine

/-- `raise` as one update of `ERR` (R151). -/
theorem raise_eq_setErr (e : Err) (s : State) :
    raise e s = s.setErr (if s.err = .noError then e else s.err) := by
  by_cases h : s.err = .noError
  · rw [raise_of_noError e h, if_pos h]
  · rw [raise_of_failStop e h, if_neg h]; rfl

/-! ## Reads -/

theorem hostRead_status (s : State) : hostRead 1 s = (status s, s) := rfl

theorem hostRead_din (s : State) : hostRead 5 s = (s.din, s) := rfl

theorem hostRead_dout (s : State) : hostRead 6 s = (s.dout, s) := rfl

theorem hostRead_iv (s : State) : hostRead 7 s = (s.iv, s) := rfl

theorem hostRead_of_unreadable {n : Nat} (hn : n = 0 ∨ n = 2 ∨ n = 3 ∨ n = 4 ∨ 8 ≤ n) (s : State) :
    hostRead n s = (0, raise .illreg s) := by
  match n with
  | 0 | 2 | 3 | 4 => rfl
  | _ + 8 => rfl
  | 1 | 5 | 6 | 7 => simp at hn

/-! ## Writes -/

theorem hostWrite_of_failStop {s : State} (n : Nat) (v : Word) (h : s.err ≠ .noError) :
    hostWrite n v s =
      if n = 0 ∧ v = 0x40 then .next (clearError s)
      else if n = 0 ∧ v = 0x50 then exec .srst s
      else .next s := by
  rw [hostWrite, if_pos h]; rfl

theorem hostWrite_cmd {s : State} (v : Word) (h : s.err = .noError) : hostWrite 0 v s = execute v s := by
  rw [hostWrite, if_neg (not_not.mpr h)]; rfl

theorem hostWrite_key0 {s : State} (v : Word) (h : s.err = .noError) :
    hostWrite 2 v s = .next (s.setKey0 v) := by
  rw [hostWrite, if_neg (not_not.mpr h)]; rfl

theorem hostWrite_key1 {s : State} (v : Word) (h : s.err = .noError) :
    hostWrite 3 v s = .next (s.setKey1 v) := by
  rw [hostWrite, if_neg (not_not.mpr h)]; rfl

theorem hostWrite_key2 {s : State} (v : Word) (h : s.err = .noError) :
    hostWrite 4 v s = .next (s.setKey2 v) := by
  rw [hostWrite, if_neg (not_not.mpr h)]; rfl

theorem hostWrite_din {s : State} (v : Word) (h : s.err = .noError) :
    hostWrite 5 v s = .next (s.setDin v) :=
  perform_write_din v h

theorem hostWrite_iv {s : State} (v : Word) (h : s.err = .noError) :
    hostWrite 7 v s = .next (s.setIv v) :=
  perform_write_iv v h

/-- In fail-stop too: the write is then ignored, and so is a second error. -/
theorem hostWrite_of_unwritable {n : Nat} (hn : n = 1 ∨ n = 6 ∨ 8 ≤ n) (v : Word) (s : State) :
    hostWrite n v s = .next (raise .illreg s) := by
  by_cases h : s.err = .noError
  · rw [hostWrite, if_neg (not_not.mpr h)]
    match n with
    | 1 | 6 => rfl
    | _ + 8 => rfl
    | 0 | 2 | 3 | 4 | 5 | 7 => simp at hn
  · have hn0 : n ≠ 0 := by omega
    simp [hostWrite_of_failStop n v h, hn0, raise_of_failStop .illreg h]

/-! ## No command records ILLREG -/

theorem err_eq_illreg_of_raise {e : Err} {s : State} (he : e ≠ .illreg) (h : (raise e s).err = .illreg) :
    s.err = .illreg := by
  rw [raise_err] at h
  split at h
  · exact absurd h he
  · exact h

theorem err_eq_illreg_of_unlessFailStop {act : State → State} {s : State}
    (hact : (act s).err = .illreg → s.err = .illreg) (h : (unlessFailStop act s).err = .illreg) :
    s.err = .illreg := by
  by_cases hs : s.err = .noError
  · rw [unlessFailStop_of_noError act hs] at h; exact hact h
  · rwa [unlessFailStop_of_failStop act hs] at h

theorem err_eq_illreg_of_loadKey {kw : Nat} {s : State} (h : (loadKey kw s).err = .illreg) :
    s.err = .illreg := by
  cases hk : legalKeyLength kw with
  | true => rwa [loadKey_of_legal s hk] at h
  | false => rw [loadKey_of_illegal s hk] at h; exact err_eq_illreg_of_raise (by decide) h

theorem err_eq_illreg_of_withKey {act : OneOrThree RoundKeySet → State → State} {s : State}
    (hact : ∀ sets, (act sets s).err = s.err) (h : (withKey act s).err = .illreg) : s.err = .illreg := by
  cases hs : s.store with
  | none => rw [withKey_of_none act hs] at h; exact err_eq_illreg_of_raise (by decide) h
  | some sets => rwa [withKey_of_some act hs, hact] at h

theorem err_eq_illreg_of_effect {i : Instr} {s : State} (h : (effect i s).err = .illreg) :
    s.err = .illreg := by
  cases i with
  | nop => exact h
  | ldkey kw => exact err_eq_illreg_of_unlessFailStop err_eq_illreg_of_loadKey h
  | clrkey => exact err_eq_illreg_of_unlessFailStop id h
  | ecbdec | ecbenc | cbcdec | cbcenc =>
    exact err_eq_illreg_of_unlessFailStop (err_eq_illreg_of_withKey fun _ => rfl) h
  | clrerr | srst => cases h

/-- The only write that newly records ILLREG is the illegal one (R38). -/
theorem err_eq_illreg_of_hostWrite {n : Nat} {v : Word} {s t : State} (hn : ¬(n = 1 ∨ n = 6 ∨ 8 ≤ n))
    (h : hostWrite n v s = .next t) (ht : t.err = .illreg) : s.err = .illreg := by
  rcases hostWrite_cases h with ⟨-, -, -, rfl⟩ | ⟨-, -, -, rfl⟩ | ⟨-, -, -, rfl⟩ | ⟨-, -, -, rfl⟩ |
    ⟨-, -, i, -, rfl⟩ | ⟨-, -, rfl⟩ | ⟨-, -, rfl⟩ | ⟨-, -, rfl⟩ | ⟨-, -, rfl⟩ | ⟨-, -, rfl⟩ | ⟨-, hill, -⟩
  · cases ht
  · cases ht
  · exact ht
  · exact err_eq_illreg_of_raise (by decide) ht
  · exact err_eq_illreg_of_effect ht
  iterate 5 exact ht
  · exact absurd hill hn

end Sys2Proof.Machine

open Sys2Proof.Machine

/-- Settles O9: the four readable registers by number, and every other number is unreadable. -/
theorem hostReadRule : Obligations.HostReadRule := by
  intro n s
  obtain rfl | rfl | rfl | rfl | hn :
      n = 1 ∨ n = 5 ∨ n = 6 ∨ n = 7 ∨ (n = 0 ∨ n = 2 ∨ n = 3 ∨ n = 4 ∨ 8 ≤ n) := by omega
  · exact hostRead_status s
  · exact hostRead_din s
  · exact hostRead_dout s
  · exact hostRead_iv s
  · rw [if_neg (by omega), if_neg (by omega), if_neg (by omega), if_neg (by omega)]
    exact hostRead_of_unreadable hn s

/-- Settles O10: fail-stop first, then the writable registers by number, and every other number is
unwritable. -/
theorem hostWriteRule : Obligations.HostWriteRule := by
  intro n v s
  by_cases hs : s.err = .noError
  · rw [if_neg (not_not.mpr hs)]
    split_ifs with h0 h2 h3 h4 h5 h7
    · rw [h0, hostWrite_cmd v hs]
    · rw [h2, hostWrite_key0 v hs]; rfl
    · rw [h3, hostWrite_key1 v hs]; rfl
    · rw [h4, hostWrite_key2 v hs]; rfl
    · rw [h5, hostWrite_din v hs]; rfl
    · rw [h7, hostWrite_iv v hs]; rfl
    · rw [hostWrite_of_unwritable (by omega), raise_of_noError .illreg hs]; rfl
  · rw [if_pos hs, hostWrite_of_failStop n v hs]; rfl

/-- Settles O11: an illegal access is `raise .illreg` and nothing else; a legal read changes no state, and a
legal write raises another error or none. -/
theorem illegalAccessRule : Obligations.IllegalAccessRule := by
  refine ⟨fun n s hn => ?_, fun n v s hn => ?_, fun n s hn => ?_, fun n v s t hn => ?_⟩
  · rw [hostRead_of_unreadable hn, raise_eq_setErr]; rfl
  · rw [hostWrite_of_unwritable hn, raise_eq_setErr]; rfl
  · obtain rfl | rfl | rfl | rfl := hn
    · rw [hostRead_status]
    · rw [hostRead_din]
    · rw [hostRead_dout]
    · rw [hostRead_iv]
  · exact err_eq_illreg_of_hostWrite (by omega)
end

section
/-! The byte order of R31: which bit of `be64 b` is which bit of which byte, and `be64` as the join of its
bytes. -/

namespace Sys2Proof.Machine

/-- A byte taken in at the bottom is joined on the right. -/
theorem setWidth_shiftLeft_or {n : Nat} (a : BitVec n) (x : Byte) :
    (a.setWidth 64 <<< 8) ||| x.setWidth 64 = (a ++ x).setWidth 64 := by
  ext j hj
  by_cases hj8 : j < 8
  · simp [BitVec.getLsbD_append, hj8]
  · have hx : x.getLsbD j = false := BitVec.getLsbD_of_ge x j (by omega)
    simp [BitVec.getLsbD_append, hj8, hx]

/-- R31's formula: the eight bytes joined, the first one the most significant. -/
theorem be64_eq_append (b0 b1 b2 b3 b4 b5 b6 b7 : Byte) :
    be64 [b0, b1, b2, b3, b4, b5, b6, b7] = b0 ++ b1 ++ b2 ++ b3 ++ b4 ++ b5 ++ b6 ++ b7 := by
  have hfirst : (0 : Word) <<< 8 ||| b0.setWidth 64 = b0.setWidth 64 := by simp
  simp only [be64, List.foldl_cons, List.foldl_nil]
  rw [hfirst]
  simp only [setWidth_shiftLeft_or, BitVec.setWidth_eq]

theorem be64_append_singleton (b : List Byte) (x : Byte) :
    be64 (b ++ [x]) = (be64 b <<< 8) ||| x.setWidth 64 := by
  simp only [be64, List.foldl_append, List.foldl_cons, List.foldl_nil]

/-- Which bit of which byte a bit of the block is (R31): the last byte stands lowest. -/
theorem be64_getLsbD (b : List Byte) (j : Nat) (hj : j < 64) :
    (be64 b).getLsbD j = (b.reverse.getD (j / 8) 0).getLsbD (j % 8) := by
  induction b using List.reverseRecOn generalizing j with
  | nil => simp [be64]
  | append_singleton b x ih =>
    rw [be64_append_singleton, List.reverse_concat, BitVec.getLsbD_or, BitVec.getLsbD_shiftLeft,
      BitVec.getLsbD_setWidth]
    by_cases hj8 : j < 8
    · simp [hj, hj8, Nat.div_eq_of_lt hj8, Nat.mod_eq_of_lt hj8]
    · have hx : x.getLsbD j = false := BitVec.getLsbD_of_ge x j (by omega)
      have hdiv : j / 8 = (j - 8) / 8 + 1 := by omega
      have hmod : j % 8 = (j - 8) % 8 := by omega
      rw [hdiv, hmod, List.getD_cons_succ, ← ih (j - 8) (by omega)]
      simp [hj, hj8, hx]

theorem be64_getLsbD_of_length {b : List Byte} (hb : b.length = 8) (j : Nat) (hj : j < 64) :
    (be64 b).getLsbD j = (b[7 - j / 8]'(by omega)).getLsbD (j % 8) := by
  rw [be64_getLsbD b j hj, List.getD_eq_getElem _ _ (by rw [List.length_reverse]; omega),
    List.getElem_reverse]
  simp only [hb]

theorem bytes8_be64 (b : List Byte) (hb : b.length = 8) : bytes8 (be64 b) = b := by
  refine List.ext_getElem (by rw [bytes8_length, hb]) fun i _ hi => ?_
  rw [bytes8_getElem]
  refine BitVec.eq_of_getLsbD_eq fun j hj => ?_
  have hbyte : 7 - (56 - 8 * i + j) / 8 = i := by omega
  have hbit : (56 - 8 * i + j) % 8 = j := by omega
  rw [byteOf_getLsbD _ i j hj, be64_getLsbD_of_length hb _ (by omega)]
  simp only [hbyte, hbit]

theorem be64_bytes8 (v : Word) : be64 (bytes8 v) = v := by
  refine BitVec.eq_of_getLsbD_eq fun j hj => ?_
  have hbit : 56 - 8 * (7 - j / 8) + j % 8 = j := by omega
  rw [be64_getLsbD_of_length (bytes8_length v) j hj, bytes8_getElem, byteOf_getLsbD _ _ _ (by omega), hbit]

/-- R31's formula for one byte. -/
theorem byteOf_toNat (v : Word) (i : Nat) : (byteOf v i).toNat = v.toNat >>> (56 - 8 * i) &&& 0xFF := by
  rw [byteOf, BitVec.toNat_setWidth, BitVec.toNat_ushiftRight]
  exact (Nat.and_two_pow_sub_one_eq_mod _ 8).symm

end Sys2Proof.Machine

open Sys2Proof.Machine

/-- Settles O30: `be64` joins the bytes, both inverses are read off bit by bit, and the example is an
instance. -/
theorem byteOrderRule : Obligations.ByteOrderRule := by
  refine ⟨be64_eq_append, bytes8_be64, fun v => ⟨be64_bytes8 v, bytes8_length v⟩, fun v i h => ?_, ?_⟩
  · rw [bytes8_getElem, byteOf_toNat]
  · rw [be64_eq_append]; rfl
end

section
/-! The map of R49: a legal command word is the join of `RSV` = 0, `OP` and `ARG` (R45), and the decoder
reads the two fields row by row. -/

namespace Sys2Proof

/-- The command word with the fields `OP` and `ARG`, and `RSV` = 0 (R45). -/
def wordOfFields (op arg : BitVec 4) : Word := 0#56 ++ op ++ arg

theorem wordOfFields_toNat (op arg : BitVec 4) :
    (wordOfFields op arg).toNat = 16 * op.toNat + arg.toNat := by
  rw [wordOfFields, BitVec.toNat_append, ← Nat.shiftLeft_add_eq_or_of_lt arg.isLt, Nat.shiftLeft_eq,
    BitVec.toNat_append]
  simp [Nat.mul_comm]

theorem decode_wordOfFields (op arg : BitVec 4) : decode (wordOfFields op arg) = decodeFields op arg := by
  have hrsv : (16 * op.toNat + arg.toNat) / 256 = 0 := by omega
  have hop : (16 * op.toNat + arg.toNat) / 16 % 16 = op.toNat := by omega
  have harg : (16 * op.toNat + arg.toNat) % 16 = arg.toNat := by omega
  rw [decode_eq, wordOfFields_toNat, if_neg (not_not.mpr hrsv), hop, harg]
  simp

/-- A word with `RSV` = 0 is the join of its two fields. -/
theorem exists_eq_wordOfFields {w : Word} (h : w.toNat / 256 = 0) : ∃ op arg, w = wordOfFields op arg := by
  refine ⟨BitVec.ofNat 4 (w.toNat / 16), BitVec.ofNat 4 w.toNat, BitVec.eq_of_toNat_eq ?_⟩
  rw [wordOfFields_toNat, BitVec.toNat_ofNat, BitVec.toNat_ofNat]
  omega

/-- The words that decode are the joins of fields that decode (R50). -/
theorem decode_eq_ok_iff {w : Word} {i : Instr} :
    decode w = .ok i ↔ ∃ op arg, w = wordOfFields op arg ∧ decodeFields op arg = .ok i := by
  constructor
  · intro h
    by_cases hrsv : w.toNat / 256 = 0
    · obtain ⟨op, arg, rfl⟩ := exists_eq_wordOfFields hrsv
      exact ⟨op, arg, rfl, decode_wordOfFields op arg ▸ h⟩
    · rw [decode_of_rsv_ne_zero w hrsv] at h
      cases h
  · rintro ⟨op, arg, rfl, h⟩
    rw [decode_wordOfFields, h]

theorem decodeZ_eq_ok_iff {c i : Instr} {arg : BitVec 4} : decodeZ c arg = .ok i ↔ arg = 0 ∧ i = c := by
  unfold decodeZ
  split_ifs with h
  · simp [h, @eq_comm _ i]
  · simp_all

/-- `ARG[3:2]` is 0 for the four arguments below 4 (R48). -/
theorem extractLsb'_two_two_eq_zero_iff :
    ∀ arg : BitVec 4, arg.extractLsb' 2 2 = 0 ↔ arg = 0 ∨ arg = 1 ∨ arg = 2 ∨ arg = 3 := by decide

theorem decodeM_eq_ok_iff {i : Instr} {arg : BitVec 4} :
    decodeM arg = .ok i ↔
      (arg = 0 ∧ i = .ecbdec) ∨ (arg = 1 ∧ i = .ecbenc) ∨ (arg = 2 ∧ i = .cbcdec) ∨
        (arg = 3 ∧ i = .cbcenc) := by
  by_cases h : arg.extractLsb' 2 2 = 0
  · obtain rfl | rfl | rfl | rfl := (extractLsb'_two_two_eq_zero_iff arg).mp h <;>
      simp [decodeM, @eq_comm _ i]
  · have hne := mt (extractLsb'_two_two_eq_zero_iff arg).mpr h
    rw [decodeM, if_pos h]
    simp_all

/-- R49 by its fields: each row is a value of `OP` with what its format asks of `ARG`. -/
theorem decodeFields_eq_ok_iff {op arg : BitVec 4} {i : Instr} :
    decodeFields op arg = .ok i ↔
      (op = 0 ∧ arg = 0 ∧ i = .nop) ∨ (op = 1 ∧ i = .ldkey arg.toNat) ∨ (op = 2 ∧ arg = 0 ∧ i = .clrkey) ∨
      (op = 3 ∧ decodeM arg = .ok i) ∨ (op = 4 ∧ arg = 0 ∧ i = .clrerr) ∨
      (op = 5 ∧ arg = 0 ∧ i = .srst) := by
  simp only [← decodeZ_eq_ok_iff]
  unfold decodeFields
  split_ifs with h0 h1 h2 h3 h4 h5
  · simp [h0]
  · simp [h1, @eq_comm _ i]
  · simp [h2]
  · simp [h3]
  · simp [h4]
  · simp [h5]
  · simp_all

/-- The LDKEY row of R49: `OP` = 1, and `ARG` is the field `KW` (R47). -/
theorem wordOfFields_one (arg : BitVec 4) : wordOfFields 1 arg = BitVec.ofNat 64 (0x10 + arg.toNat) := by
  apply BitVec.eq_of_toNat_eq
  rw [wordOfFields_toNat, BitVec.toNat_ofNat, Nat.mod_eq_of_lt (by omega)]
  rfl

theorem decode_ldkey {kw : Nat} (h : kw < 16) : decode (BitVec.ofNat 64 (0x10 + kw)) = .ok (.ldkey kw) := by
  have hword := wordOfFields_one (BitVec.ofNat 4 kw)
  rw [BitVec.toNat_ofNat, Nat.mod_eq_of_lt h] at hword
  rw [← hword, decode_wordOfFields, decodeFields_eq_ok_iff]
  simp [Nat.mod_eq_of_lt h]

end Sys2Proof

open Sys2Proof

/-- Settles O2: a word that decodes is the join of fields of some row, and the word of each row decodes. -/
theorem opcodeMapIsComplete : Obligations.OpcodeMapIsComplete := by
  intro w i
  constructor
  · intro h
    obtain ⟨op, arg, rfl, hfields⟩ := decode_eq_ok_iff.mp h
    rw [decodeFields_eq_ok_iff, decodeM_eq_ok_iff] at hfields
    obtain ⟨rfl, rfl, rfl⟩ | ⟨rfl, rfl⟩ | ⟨rfl, rfl, rfl⟩ |
      ⟨rfl, ⟨rfl, rfl⟩ | ⟨rfl, rfl⟩ | ⟨rfl, rfl⟩ | ⟨rfl, rfl⟩⟩ | ⟨rfl, rfl, rfl⟩ | ⟨rfl, rfl, rfl⟩ := hfields
    case inr.inl => exact .inr (.inl ⟨arg.toNat, arg.isLt, wordOfFields_one arg, rfl⟩)
    all_goals simp [wordOfFields]
  · rintro (⟨rfl, rfl⟩ | ⟨kw, hkw, rfl, rfl⟩ | ⟨rfl, rfl⟩ | ⟨rfl, rfl⟩ | ⟨rfl, rfl⟩ | ⟨rfl, rfl⟩ |
      ⟨rfl, rfl⟩ | ⟨rfl, rfl⟩ | ⟨rfl, rfl⟩)
    case inr.inl => exact decode_ldkey hkw
    all_goals rfl
end

section
/-! IP, FP and the join before FP (R82, R83): two permutations in a row are the one whose table is the first
table read through the second, and for IP and FP that table is 1, 2, .., 64 in either order. -/

namespace Sys2Proof.Machine

/-- The table `T[U[1]], T[U[2]], ..` of permuting by `t` and then by `u` (R5). -/
def readThrough (t u : List Nat) : List Nat := u.map fun j => t.getD (j - 1) 0

theorem readThrough_getD {t u : List Nat} {i : Nat} (h : i < u.length) :
    (readThrough t u).getD i 0 = t.getD (u.getD i 0 - 1) 0 := by
  rw [readThrough, List.getD_eq_getElem _ _ (by rwa [List.length_map]), List.getElem_map,
    List.getD_eq_getElem u _ h]

theorem permute_permute {n : Nat} (m k : Nat) (v : BitVec n) {t u : List Nat} (ht : t.length = m)
    (hu : u.length = k) (hmem : ∀ j ∈ u, 1 ≤ j ∧ j ≤ m) :
    permute k (permute m v t) u = permute k v (readThrough t u) := by
  refine BitVec.eq_of_getLsbD_eq fun i hi => ?_
  have hlen : (readThrough t u).length = k := by rw [readThrough, List.length_map, hu]
  obtain ⟨hone, hle⟩ := hmem _ (List.getElem_mem (l := u) (n := k - 1 - i) (by omega))
  rw [permute_getLsbD k _ u hu i hi, permute_getLsbD k v _ hlen i hi, dbit_permute m v t ht _ hone hle]
  simp only [readThrough, List.getElem_map]
  rw [List.getD_eq_getElem _ _ (by omega)]

theorem permute_range' {n : Nat} (v : BitVec n) : permute n v (List.range' 1 n) = v := by
  refine BitVec.eq_of_getLsbD_eq fun i hi => ?_
  have hbit : n - (1 + (n - 1 - i)) = i := by omega
  rw [permute_getLsbD n v _ List.length_range' i hi, List.getElem_range', dbit, Nat.one_mul, hbit]

/-! ## IP and FP -/

theorem readThrough_ip_fp : readThrough ip fp = List.range' 1 64 := by decide

theorem readThrough_fp_ip : readThrough fp ip = List.range' 1 64 := by decide

theorem mem_ip_bounds : ∀ j ∈ ip, 1 ≤ j ∧ j ≤ 64 := by decide

theorem mem_fp_bounds : ∀ j ∈ fp, 1 ≤ j ∧ j ≤ 64 := by decide

theorem permute_fp_permute_ip (v : Word) : permute 64 (permute 64 v ip) fp = v := by
  rw [permute_permute 64 64 v length_ip length_fp mem_fp_bounds, readThrough_ip_fp, permute_range']

theorem permute_ip_permute_fp (v : Word) : permute 64 (permute 64 v fp) ip = v := by
  rw [permute_permute 64 64 v length_fp length_ip mem_ip_bounds, readThrough_fp_ip, permute_range']

/-- `IP[FP[j]] = j` of R83. -/
theorem ip_getD_fp_getD {j : Nat} (h1 : 1 ≤ j) (h64 : j ≤ 64) :
    ip.getD (fp.getD (j - 1) 0 - 1) 0 = j := by
  have hj : j - 1 < fp.length := by rw [length_fp]; omega
  rw [← readThrough_getD hj, readThrough_ip_fp,
    List.getD_eq_getElem _ _ (by rw [List.length_range']; omega), List.getElem_range']
  omega

/-! ## The end of the rounds -/

/-- The result from the halves that the rounds leave: `R || L` through FP (R82, R83). -/
theorem btCore_of_foldl {x : Word} {q : List RoundKey} {l r : Half}
    (h : q.foldl feistelRound (splitIP x) = (l, r)) : btCore x q = permute 64 (r ++ l) fp := by
  rw [btCore, h, joinFP]

/-- One more subkey is one more round, applied to the halves left before it (R81). -/
theorem foldl_feistelRound_append_singleton {lr : Half × Half} {q : List RoundKey} {l r : Half}
    (h : q.foldl feistelRound lr = (l, r)) (k : RoundKey) :
    (q ++ [k]).foldl feistelRound lr = (r, l ^^^ feistel r k) := by
  rw [List.foldl_append, h, List.foldl_cons, List.foldl_nil, feistelRound]

end Sys2Proof.Machine

open Sys2Proof.Machine

/-- Settles O37: the join is the definition of `btCore`, and IP and FP read through each other are the table
of the identity. -/
theorem fpIsTheInverseOfIp : Obligations.FpIsTheInverseOfIp :=
  ⟨fun _ _ _ _ => btCore_of_foldl, permute_fp_permute_ip, permute_ip_permute_fp, fun _ => ip_getD_fp_getD⟩

/-- Settles O38: the last round leaves `(R[15], L[15] ^ F(R[15], Q[16]))`, and the join exchanges the two. -/
theorem lastRoundIsNotSwapped : Obligations.LastRoundIsNotSwapped := by
  intro x q k l r h
  exact btCore_of_foldl (foldl_feistelRound_append_singleton h k)
end

section
/-! The cascade (R94 to R96): a block transform and the cascade in one direction are undone by the other
direction. -/

namespace Sys2Proof.Machine

/-! ## The block transform undone (R83, R86) -/

/-- The halves of a result are the halves that were joined, exchanged (R82, R83). -/
theorem splitIP_joinFP (lr : Half × Half) : splitIP (joinFP lr) = lr.swap := by
  rw [splitIP, joinFP, permute_ip_permute_fp, extract_upper_append, extract_lower_append, Prod.swap]

theorem joinFP_swap_splitIP (x : Word) : joinFP (splitIP x).swap = x := by
  rw [joinFP, splitIP, Prod.swap, append_extract_halves, permute_fp_permute_ip]

/-- R86 (a). -/
theorem btCore_btCore_reverse (x : Word) (q : List RoundKey) : btCore (btCore x q) q.reverse = x := by
  rw [btCore, btCore, splitIP_joinFP, foldl_feistelRound_reverse, joinFP_swap_splitIP]

theorem bt_decrypt_bt_encrypt (x : Word) (rk : RoundKeySet) : bt (bt x rk .encrypt) rk .decrypt = x := by
  rw [bt_encrypt, bt_decrypt, btCore_btCore_reverse]

theorem bt_encrypt_bt_decrypt (x : Word) (rk : RoundKeySet) : bt (bt x rk .decrypt) rk .encrypt = x := by
  have h := btCore_btCore_reverse x rk.toList.reverse
  rwa [List.reverse_reverse] at h

/-! ## The cascade (R95, R96) -/

/-- R95, encrypting under three sets. -/
theorem cascade_three_encrypt (x : Word) (a b c : RoundKeySet) :
    cascade x (.three a b c) .encrypt = bt (bt (bt x a .encrypt) b .decrypt) c .encrypt := rfl

/-- R95, decrypting under three sets: the stages backward. -/
theorem cascade_three_decrypt (x : Word) (a b c : RoundKeySet) :
    cascade x (.three a b c) .decrypt = bt (bt (bt x c .decrypt) b .encrypt) a .decrypt := rfl

/-- The stages of the second pass run backward, in the other direction, so the innermost pair cancels first. -/
theorem cascade_decrypt_cascade_encrypt (x : Word) (sets : OneOrThree RoundKeySet) :
    cascade (cascade x sets .encrypt) sets .decrypt = x := by
  cases sets with
  | one a => rw [cascade_one, cascade_one, bt_decrypt_bt_encrypt]
  | three a b c =>
    rw [cascade_three_decrypt, cascade_three_encrypt, bt_decrypt_bt_encrypt, bt_encrypt_bt_decrypt,
      bt_decrypt_bt_encrypt]

theorem cascade_encrypt_cascade_decrypt (x : Word) (sets : OneOrThree RoundKeySet) :
    cascade (cascade x sets .decrypt) sets .encrypt = x := by
  cases sets with
  | one a => rw [cascade_one, cascade_one, bt_encrypt_bt_decrypt]
  | three a b c =>
    rw [cascade_three_encrypt, cascade_three_decrypt, bt_encrypt_bt_decrypt, bt_decrypt_bt_encrypt,
      bt_encrypt_bt_decrypt]

theorem cascade_bijective (sets : OneOrThree RoundKeySet) (dir : Dir) :
    Function.Bijective fun x => cascade x sets dir := by
  rw [Function.bijective_iff_has_inverse]
  cases dir with
  | encrypt => exact ⟨fun y => cascade y sets .decrypt, fun x => cascade_decrypt_cascade_encrypt x sets,
      fun y => cascade_encrypt_cascade_decrypt y sets⟩
  | decrypt => exact ⟨fun y => cascade y sets .encrypt, fun x => cascade_encrypt_cascade_decrypt x sets,
      fun y => cascade_decrypt_cascade_encrypt y sets⟩

end Sys2Proof.Machine

open Sys2Proof.Machine

/-- Settles O43: the plans compute, and the cascade follows them stage by stage. -/
theorem cascadeStages : Obligations.CascadeStages :=
  ⟨rfl, rfl, rfl, rfl, fun x a b c =>
    ⟨cascade_one x a .encrypt, cascade_one x a .decrypt, cascade_three_encrypt x a b c,
      cascade_three_decrypt x a b c⟩⟩

/-- Settles O44: the stages undo one another in turn, and each direction is the inverse of the other. -/
theorem cascadeInverse : Obligations.CascadeInverse :=
  ⟨fun x sets => ⟨cascade_decrypt_cascade_encrypt x sets, cascade_encrypt_cascade_decrypt x sets⟩,
    cascade_bijective⟩
end

section
/-! The key guard by key length (R90 to R92): which key words are present decides which comparisons are
left of R91. -/

namespace Sys2Proof.Machine

/-- An 8-byte key has neither of the further words, and `absent` equals `absent` (R90). -/
theorem keyGuard_one_word (k0 k1 k2 : Word) : keyGuard 1 k0 k1 k2 = .one k0 := by
  simp [keyGuard, presentFrom]

/-- With 16 bytes the second word is compared with the first alone, and the first stands in for the third. -/
theorem keyGuard_two_words (k0 k1 k2 : Word) :
    keyGuard 2 k0 k1 k2 = if k1 = k0 then .one k0 else .three k0 k1 k0 := by
  simp [keyGuard, presentFrom]

theorem keyGuard_three_words (k0 k1 k2 : Word) :
    keyGuard 3 k0 k1 k2 = if k1 = k2 then .one k0 else if k1 = k0 then .one k2 else .three k0 k1 k2 := by
  simp [keyGuard, presentFrom]

end Sys2Proof.Machine

open Sys2Proof.Machine

/-- Settles O42: each row of R92 is a branch of the guard at its key length. -/
theorem keyGuardOutcomes : Obligations.KeyGuardOutcomes := by
  intro k0 k1 k2
  rw [keyGuard_two_words, keyGuard_three_words]
  refine ⟨keyGuard_one_word k0 k1 k2, fun h => if_pos h, fun h => if_neg h, fun h => if_pos h,
    fun h2 h0 => ?_, fun h2 h0 => ?_⟩
  · rw [if_neg h2, if_pos h0]
  · rw [if_neg h2, if_neg h0]
end

section
/-! The mode driver's sequences (R101 to R103, R106, R107): a message is taken block by block, so each fact
is one about the head block and the running value it leaves, carried along the list. -/

namespace Sys2Proof.Machine

/-! ## Round trips (R106) -/

theorem ecbSeq_decrypt_ecbSeq_encrypt (sets : OneOrThree RoundKeySet) (xs : List Word) :
    ecbSeq sets .decrypt (ecbSeq sets .encrypt xs) = xs := by
  simp [ecbSeq, Function.comp_def, cascade_decrypt_cascade_encrypt]

theorem ecbSeq_encrypt_ecbSeq_decrypt (sets : OneOrThree RoundKeySet) (xs : List Word) :
    ecbSeq sets .encrypt (ecbSeq sets .decrypt xs) = xs := by
  simp [ecbSeq, Function.comp_def, cascade_encrypt_cascade_decrypt]

/-- Both sides chain on the same ciphertext block, whatever the running value was before. -/
theorem cbcDecSeq_cbcEncSeq (sets : OneOrThree RoundKeySet) (iv : Word) (ps : List Word) :
    cbcDecSeq sets iv (cbcEncSeq sets iv ps) = ps := by
  induction ps generalizing iv with
  | nil => rfl
  | cons p ps ih =>
    rw [cbcEncSeq, cbcDecSeq, ih, cascade_decrypt_cascade_encrypt, BitVec.xor_assoc, BitVec.xor_self,
      BitVec.xor_zero]

theorem cbcEncSeq_cbcDecSeq (sets : OneOrThree RoundKeySet) (iv : Word) (cs : List Word) :
    cbcEncSeq sets iv (cbcDecSeq sets iv cs) = cs := by
  induction cs generalizing iv with
  | nil => rfl
  | cons c cs ih =>
    rw [cbcDecSeq, cbcEncSeq, BitVec.xor_assoc, BitVec.xor_self, BitVec.xor_zero,
      cascade_encrypt_cascade_decrypt, ih]

/-! ## What another IV changes (R107) -/

theorem ecbSeq_getElem? (sets : OneOrThree RoundKeySet) (dir : Dir) (xs : List Word) (i : Nat) :
    (ecbSeq sets dir xs)[i]? = xs[i]?.map fun x => cascade x sets dir :=
  List.getElem?_map

/-- The step R107 turns on: two running values that differ leave two ciphertext blocks that differ, and
these are the next running values. -/
theorem cascade_xor_ne {iv iv' : Word} (h : iv ≠ iv') (p : Word) (sets : OneOrThree RoundKeySet) (dir : Dir) :
    cascade (p ^^^ iv) sets dir ≠ cascade (p ^^^ iv') sets dir :=
  fun he => h ((BitVec.xor_right_inj _).mp ((cascade_bijective sets dir).injective he))

theorem cbcEncSeq_getElem?_ne (sets : OneOrThree RoundKeySet) {iv iv' : Word} (ps : List Word) (h : iv ≠ iv')
    (i : Nat) (hi : i < ps.length) : (cbcEncSeq sets iv ps)[i]? ≠ (cbcEncSeq sets iv' ps)[i]? := by
  induction ps generalizing iv iv' i with
  | nil => simp at hi
  | cons p ps ih =>
    have hc := cascade_xor_ne h p sets .encrypt
    cases i with
    | zero => simpa [cbcEncSeq] using hc
    | succ i => simpa [cbcEncSeq] using ih hc i (by simpa using hi)

/-- A decryption's running value after the first block is that ciphertext block itself, so the IV reaches
no further than the first result. -/
theorem cbcDecSeq_cons_of_iv_ne (sets : OneOrThree RoundKeySet) {iv iv' : Word} (c : Word) (cs : List Word)
    (h : iv ≠ iv') :
    (cbcDecSeq sets iv (c :: cs))[0]? ≠ (cbcDecSeq sets iv' (c :: cs))[0]? ∧
      (cbcDecSeq sets iv (c :: cs)).tail = (cbcDecSeq sets iv' (c :: cs)).tail :=
  ⟨fun he => h ((BitVec.xor_right_inj _).mp (Option.some.inj he)), rfl⟩

end Sys2Proof.Machine

open Sys2Proof.Machine

/-- Settles O46: the ECB compositions block by block, the CBC ones along the chain. -/
theorem modeRoundTrips : Obligations.ModeRoundTrips := fun sets iv xs =>
  ⟨ecbSeq_decrypt_ecbSeq_encrypt sets xs, ecbSeq_encrypt_ecbSeq_decrypt sets xs,
    cbcDecSeq_cbcEncSeq sets iv xs, cbcEncSeq_cbcDecSeq sets iv xs⟩

/-- Settles O47: the injectivity of the cascade carries a changed IV along an encryption, and a decryption
drops it after the first block. -/
theorem chainingDiffuses : Obligations.ChainingDiffuses := by
  refine ⟨fun sets dir xs i j hij => ?_, fun sets iv iv' ps h => cbcEncSeq_getElem?_ne sets ps h,
    fun sets iv iv' cs h hne => ?_⟩
  · rw [ecbSeq_getElem?, ecbSeq_getElem?, hij]
  · obtain ⟨c, cs, rfl⟩ := List.exists_cons_of_ne_nil hne
    exact cbcDecSeq_cons_of_iv_ne sets c cs h
end

section
/-! The commands of `44_commands.md` as equations: what `effect` is for each command outside fail-stop, with
the key there or not, and what the results R111 to R119 speak of are in the state it leaves. -/

namespace Sys2Proof.Machine

/-- A command's outcome is the next state `effect` gives, and no other. -/
theorem exec_eq_next_iff {i : Instr} {s t : State} : exec i s = .next t ↔ t = effect i s := by
  rw [exec_eq, Host.Outcome.next.injEq, eq_comm]

/-! ## System commands (R112, R118, R119) -/

theorem sameBlock_reset_resetBlock (s : State) : SameBlock State.reset (resetBlock s) :=
  ⟨rfl, rfl, rfl, rfl, rfl, rfl, rfl, rfl⟩

/-! ## Key commands (R111, R113) -/

theorem effect_ldkey_of_legal {kw : Nat} {s : State} (he : s.err = .noError) (hk : kw = 1 ∨ kw = 2 ∨ kw = 3) :
    effect (.ldkey kw) s = s.setStore (some (loadSets (keyOperand kw s))) := by
  rw [effect, unlessFailStop_of_noError _ he, loadKey_of_legal s ((legalKeyLength_iff kw).mpr hk)]

theorem effect_ldkey_of_illegal {kw : Nat} {s : State} (he : s.err = .noError)
    (hk : ¬(kw = 1 ∨ kw = 2 ∨ kw = 3)) : effect (.ldkey kw) s = s.setErr .invkey := by
  have hill : legalKeyLength kw = false := Bool.eq_false_iff.mpr (mt (legalKeyLength_iff kw).mp hk)
  rw [effect, unlessFailStop_of_noError _ he, loadKey_of_illegal s hill, raise_of_noError _ he]

/-- LDKEY writes none of its own operands, so it loads the same store again. -/
theorem effect_ldkey_effect_ldkey {kw : Nat} {s : State} (he : s.err = .noError)
    (hk : kw = 1 ∨ kw = 2 ∨ kw = 3) : effect (.ldkey kw) (effect (.ldkey kw) s) = effect (.ldkey kw) s := by
  rw [effect_ldkey_of_legal he hk, effect_ldkey_of_legal (by exact he) hk]; rfl

/-- An 8-byte key is KEY0 alone. -/
theorem effect_ldkey_one_setKey1_setKey2 {s : State} (k1 k2 : Word) (he : s.err = .noError) :
    effect (.ldkey 1) ((s.setKey1 k1).setKey2 k2) = ((effect (.ldkey 1) s).setKey1 k1).setKey2 k2 := by
  rw [effect_ldkey_of_legal he (.inl rfl), effect_ldkey_of_legal (by exact he) (.inl rfl), keyOperand,
    keyOperand, keyGuard_one_word, keyGuard_one_word]
  rfl

/-- A 16-byte key does not read KEY2. -/
theorem effect_ldkey_two_setKey2 {s : State} (k2 : Word) (he : s.err = .noError) :
    effect (.ldkey 2) (s.setKey2 k2) = (effect (.ldkey 2) s).setKey2 k2 := by
  rw [effect_ldkey_of_legal he (.inr (.inl rfl)), effect_ldkey_of_legal (by exact he) (.inr (.inl rfl)),
    keyOperand, keyOperand, keyGuard_two_words, keyGuard_two_words]
  rfl

theorem effect_clrkey {s : State} (he : s.err = .noError) : effect .clrkey s = forgetKey s :=
  unlessFailStop_of_noError _ he

theorem OneOrThree.size_map {α β : Type} (f : α → β) (ws : OneOrThree α) : (ws.map f).size = ws.size := by
  cases ws <;> rfl

theorem OneOrThree.size_ne_zero {α : Type} (ws : OneOrThree α) : ws.size ≠ 0 := by
  cases ws with
  | one a => exact Nat.one_ne_zero
  | three a b c => exact Nat.succ_ne_zero 2

theorem nsets_of_store_some {s : State} {sets : OneOrThree RoundKeySet} (h : s.store = some sets) :
    nsets s = sets.size := by
  rw [nsets, h]

theorem keyv_of_store_some {s : State} {sets : OneOrThree RoundKeySet} (h : s.store = some sets) :
    keyv s = true := by
  rw [keyv, nsets_of_store_some h, bne_iff_ne]; exact sets.size_ne_zero

theorem triple_eq_true_iff {s : State} : triple s = true ↔ nsets s = 3 := beq_iff_eq

/-! ## Processing commands (R114 to R117) -/

/-- With no key loaded every processing command raises NOKEY. -/
theorem effect_of_noKey {i : Instr} {s : State} (hi : i = .ecbdec ∨ i = .ecbenc ∨ i = .cbcdec ∨ i = .cbcenc)
    (he : s.err = .noError) (hs : s.store = none) : effect i s = s.setErr .nokey := by
  have hnokey (act) : unlessFailStop (withKey act) s = s.setErr .nokey := by
    rw [unlessFailStop_of_noError _ he, withKey_of_none _ hs, raise_of_noError _ he]
  obtain rfl | rfl | rfl | rfl := hi <;> exact hnokey _

theorem exec_of_noKey {i : Instr} {s : State} (hi : i = .ecbdec ∨ i = .ecbenc ∨ i = .cbcdec ∨ i = .cbcenc)
    (he : s.err = .noError) (hs : s.store = none) : exec i s = .next (s.setErr .nokey) := by
  rw [exec_eq, effect_of_noKey hi he hs]

/-- An ECB command writes DOUT alone, which it does not read. -/
theorem ecbStep_ecbStep (dir : Dir) (sets : OneOrThree RoundKeySet) (s : State) :
    ecbStep dir sets (ecbStep dir sets s) = ecbStep dir sets s := rfl

/-- The round trip of R96 over DIN and DOUT. -/
theorem ecbStep_decrypt_of_din_encrypted {sets : OneOrThree RoundKeySet} {s : State} {x : Word}
    (hdin : s.din = cascade x sets .encrypt) : ecbStep .decrypt sets s = s.setDout x := by
  rw [ecbStep, blockOperand, hdin, cascade_decrypt_cascade_encrypt]

/-- The second CBCDEC mixes in the IV the first one left, the block in DIN. -/
theorem cbcDecStep_cbcDecStep_dout_eq_iff (sets : OneOrThree RoundKeySet) (s : State) :
    (cbcDecStep sets (cbcDecStep sets s)).dout = (cbcDecStep sets s).dout ↔ s.iv = s.din :=
  (BitVec.xor_right_inj (cascade s.din sets .decrypt)).trans eq_comm

/-- The second CBCENC mixes in the IV the first one left, its result. -/
theorem cbcEncStep_cbcEncStep_dout (sets : OneOrThree RoundKeySet) (s : State) :
    (cbcEncStep sets (cbcEncStep sets s)).dout =
      cascade (s.din ^^^ (cbcEncStep sets s).dout) sets .encrypt := rfl

/-- With IV = 0 nothing is mixed in, so the result is that of the ECB step. -/
theorem cbcEncStep_dout_of_iv_zero (sets : OneOrThree RoundKeySet) {s : State} (hiv : s.iv = 0) :
    (cbcEncStep sets s).dout = (ecbStep .encrypt sets s).dout := by
  simp [cbcEncStep, ecbStep, chainedOperand, blockOperand, hiv]

theorem cbcDecStep_dout_of_iv_zero (sets : OneOrThree RoundKeySet) {s : State} (hiv : s.iv = 0) :
    (cbcDecStep sets s).dout = (ecbStep .decrypt sets s).dout := by
  simp [cbcDecStep, ecbStep, blockOperand, hiv]

/-- With IV = 0 the mode does not show in DOUT, also where both commands raise NOKEY. -/
theorem effect_cbcenc_dout_of_iv_zero {s : State} (he : s.err = .noError) (hiv : s.iv = 0) :
    (effect .cbcenc s).dout = (effect .ecbenc s).dout := by
  cases hs : s.store with
  | none => rw [effect_of_noKey (by simp) he hs, effect_of_noKey (by simp) he hs]
  | some sets => rw [effect_cbcenc he hs, effect_ecbenc he hs, cbcEncStep_dout_of_iv_zero sets hiv]

theorem effect_cbcdec_dout_of_iv_zero {s : State} (he : s.err = .noError) (hiv : s.iv = 0) :
    (effect .cbcdec s).dout = (effect .ecbdec s).dout := by
  cases hs : s.store with
  | none => rw [effect_of_noKey (by simp) he hs, effect_of_noKey (by simp) he hs]
  | some sets => rw [effect_cbcdec he hs, effect_ecbdec he hs, cbcDecStep_dout_of_iv_zero sets hiv]

end Sys2Proof.Machine

open Sys2Proof.Machine

/-- Settles O21: the state SRST leaves is the reset block, whose store is none and whose ERR is 0. -/
theorem systemCommands : Obligations.SystemCommands := by
  refine ⟨rfl, rfl, rfl, fun s => ⟨exec_eq .nop s, exec_eq .clrerr s, resetBlock s, exec_eq .srst s,
    sameBlock_reset_resetBlock s, rfl, rfl, rfl, rfl, rfl, rfl, ?_, rfl, ?_⟩⟩
  · exact nsets_of_store_none (resetBlock_store s)
  · rw [status_of_store_none (resetBlock_store s), resetBlock_err]; rfl

/-- Settles O22: LDKEY reads the key registers the guard reads at that length, and writes the store alone. -/
theorem ldkeyLoadsTheKey : Obligations.LdkeyLoadsTheKey := by
  refine ⟨fun kw s he hk => ?_, fun kw s t he hk ht => ?_, fun s t u k1 k2 he ht hu => ?_,
    fun s t u k2 he ht hu => ?_, fun kw s he _ hk => ?_, fun kw _ => ?_⟩
  · rw [exec_eq, effect_ldkey_of_legal he hk]; rfl
  · rw [exec_eq_next_iff] at ht
    have hstore : t.store = some (loadSets (keyOperand kw s)) := by
      rw [ht, effect_ldkey_of_legal he hk]; rfl
    have hsize : nsets t = (keyGuard kw s.key0 s.key1 s.key2).size := by
      rw [nsets_of_store_some hstore, loadSets, OneOrThree.size_map]; rfl
    refine ⟨hsize, keyv_of_store_some hstore, by rw [triple_eq_true_iff, hsize], ?_⟩
    rw [exec_eq_next_iff, ht, effect_ldkey_effect_ldkey he hk]
  · rw [exec_eq_next_iff] at ht hu
    rw [ht, hu]
    exact effect_ldkey_one_setKey1_setKey2 k1 k2 he
  · rw [exec_eq_next_iff] at ht hu
    rw [ht, hu]
    exact effect_ldkey_two_setKey2 k2 he
  · rw [exec_eq, effect_ldkey_of_illegal he hk]; rfl
  · exact (BitVec.ofNat_add 0x10 kw).symm

/-- Settles O23: the store CLRKEY leaves is none, which is what the key flags and NOKEY depend on. -/
theorem clrkeyForgetsTheKey : Obligations.ClrkeyForgetsTheKey := by
  refine ⟨rfl, fun s he => ⟨?_, fun t ht => ?_⟩⟩
  · rw [exec_eq, effect_clrkey he]; rfl
  · rw [exec_eq_next_iff, effect_clrkey he] at ht
    have hstore : t.store = none := by rw [ht]; rfl
    have herr : t.err = .noError := by rw [ht]; exact he
    refine ⟨keyv_of_store_none hstore, triple_of_store_none hstore,
      fun i hi => exec_of_noKey hi herr hstore⟩

/-- Settles O24: with a key the ECB commands are `ecbStep`, which writes DOUT and reads DIN and the store. -/
theorem ecbCommands : Obligations.EcbCommands := by
  refine ⟨rfl, rfl, fun s he => ⟨fun sets hs => ?_, fun hs => ?_⟩⟩
  · simp only [exec_eq_next_iff, effect_ecbdec he hs, effect_ecbenc he hs, forall_eq]
    refine ⟨rfl, rfl, ?_, ?_, ?_⟩
    · rw [effect_ecbdec (by exact he) (by exact hs), ecbStep_ecbStep]
    · rw [effect_ecbenc (by exact he) (by exact hs), ecbStep_ecbStep]
    · rw [effect_ecbdec (by exact he) (by exact hs), ecbStep_decrypt_of_din_encrypted (x := s.din) rfl]
      rfl
  · exact ⟨exec_of_noKey (by simp) he hs, exec_of_noKey (by simp) he hs⟩

/-- Settles O25: with a key the CBC commands are their steps, and a repeated one starts from the IV the first
one left. -/
theorem cbcCommands : Obligations.CbcCommands := by
  refine ⟨rfl, rfl, fun s he => ⟨fun sets hs => ?_, fun hs => ?_, fun hiv t u => ?_⟩⟩
  · simp only [exec_eq_next_iff, effect_cbcdec he hs, effect_cbcenc he hs]
    refine ⟨rfl, rfl, fun t u ht hu => ?_, fun t u ht hu => ?_⟩
    · subst ht
      rw [hu, effect_cbcdec (by exact he) (by exact hs), cbcDecStep_cbcDecStep_dout_eq_iff]
    · subst ht
      rw [hu, effect_cbcenc (by exact he) (by exact hs), cbcEncStep_cbcEncStep_dout]
  · exact ⟨exec_of_noKey (by simp) he hs, exec_of_noKey (by simp) he hs⟩
  · simp only [exec_eq_next_iff]
    refine ⟨fun ht hu => ?_, fun ht hu => ?_⟩
    · rw [ht, hu, effect_cbcenc_dout_of_iv_zero he hiv]
    · rw [ht, hu, effect_cbcdec_dout_of_iv_zero he hiv]
end

section
/-! The Initial-Value Guard (R134): what it answers for a byte string by its length and for an integer by its
range. -/

namespace Sys2Proof.Machine

theorem guardIv_bytes_of_length {b : List Byte} (h : b.length = 8) :
    guardIv (.bytes b) = .ok (some (be64 b)) := if_pos h

theorem guardIv_bytes_of_length_ne {b : List Byte} (h : b.length ≠ 8) :
    guardIv (.bytes b) = .error .invalidIv := if_neg h

/-- The bound of R134 (decision D19) is the number of values of a word. -/
theorem ivIntLimit_eq : Config.ivIntLimit = 2 ^ 64 := rfl

theorem guardIv_int_of_out_of_range {i : Int} (h : i < 0 ∨ 2 ^ 64 ≤ i) :
    guardIv (.int i) = .error .invalidIv := if_pos h

theorem guardIv_int_of_in_range {i : Int} (h0 : 0 ≤ i) (hlt : i < 2 ^ 64) :
    guardIv (.int i) = .ok (some (BitVec.ofInt 64 i)) := by
  have hin : ¬ (i < 0 ∨ Config.ivIntLimit ≤ i) := by
    rw [ivIntLimit_eq]
    omega
  exact if_neg hin

/-- An integer of the word's range is the value of its word: the reduction modulo 2^64 leaves it as it is. -/
theorem toNat_ofInt_of_in_range {i : Int} (h0 : 0 ≤ i) (hlt : i < 2 ^ 64) :
    ((BitVec.ofInt 64 i).toNat : Int) = i := by
  rw [BitVec.toNat_ofInt]
  omega

end Sys2Proof.Machine

open Sys2Proof.Machine

/-- Settles O52: the guard by kind of argument; the word of an integer in range is its residue modulo 2^64,
which is the integer itself. -/
theorem guardIvRule : Obligations.GuardIvRule :=
  ⟨rfl, rfl, fun _ => guardIv_bytes_of_length, fun _ => guardIv_bytes_of_length_ne,
    fun i h0 hlt => ⟨BitVec.ofInt 64 i, guardIv_int_of_in_range h0 hlt, toNat_ofInt_of_in_range h0 hlt⟩,
    fun _ => guardIv_int_of_out_of_range⟩
end

section
/-! Fail-stop at the port (R152), from the rules of the port. -/

open Sys2Proof.Machine

/-- Settles O16: in fail-stop a write is one of the two exact words to CMD or is ignored, and a read raises
nothing, so it answers as the register rules say. -/
theorem failStopRule : Obligations.FailStopRule := by
  intro s hs
  refine ⟨fun n v hclr hsrst => ?_, ?_, ?_, fun n => hostRead_failStop n hs, fun n hn => ?_,
    congrArg Prod.fst (hostRead_status s), congrArg Prod.fst (hostRead_din s),
    congrArg Prod.fst (hostRead_dout s), congrArg Prod.fst (hostRead_iv s)⟩
  · rw [hostWrite_of_failStop n v hs, if_neg hclr, if_neg hsrst]
  · rw [hostWrite_of_failStop 0 0x40 hs, if_pos ⟨rfl, rfl⟩]
    rfl
  · rw [hostWrite_of_failStop 0 0x50 hs, if_neg (by decide), if_pos ⟨rfl, rfl⟩]
  · rw [hostRead_of_unreadable hn s]
end

section
/-! Decoding and encoding agree (R49, R50), and which words are illegal (R51): the decoder's rows by their
fields, once for the words that decode and once for those that do not. -/

namespace Sys2Proof

/-- The LDKEY row of the encoder, as the number R49 gives. -/
theorem encode_ldkey (kw : Nat) : encode (.ldkey kw) = BitVec.ofNat 64 (0x10 + kw) :=
  (BitVec.ofNat_add 0x10 kw).symm

theorem decode_encode {i : Instr} (h : i.wf = true) : decode (encode i) = .ok i := by
  cases i with
  | ldkey kw =>
    have hkw : kw < 16 := by simpa [Instr.wf] using h
    rw [encode_ldkey, decode_ldkey hkw]
  | nop | clrkey | ecbdec | ecbenc | cbcdec | cbcenc | clrerr | srst => rfl

/-- Each row of R49 is the row of the encoder. -/
theorem wf_and_encode_of_decode {w : Word} {i : Instr} (h : decode w = .ok i) :
    i.wf = true ∧ encode i = w := by
  obtain ⟨rfl, rfl⟩ | ⟨kw, hkw, rfl, rfl⟩ | ⟨rfl, rfl⟩ | ⟨rfl, rfl⟩ | ⟨rfl, rfl⟩ | ⟨rfl, rfl⟩ | ⟨rfl, rfl⟩ |
    ⟨rfl, rfl⟩ | ⟨rfl, rfl⟩ := (opcodeMapIsComplete w i).mp h
  · exact ⟨rfl, rfl⟩
  · exact ⟨decide_eq_true hkw, encode_ldkey kw⟩
  iterate 7 exact ⟨rfl, rfl⟩

/-! ## Illegal words (R51) -/

theorem exists_decodeZ_eq_error_iff {i : Instr} {arg : BitVec 4} :
    (∃ e, decodeZ i arg = .error e) ↔ arg.toNat ≠ 0 := by
  unfold decodeZ
  split_ifs with h
  · simp [h]
  · simpa [← BitVec.toNat_inj] using h

theorem exists_decodeM_eq_error_iff {arg : BitVec 4} :
    (∃ e, decodeM arg = .error e) ↔ 4 ≤ arg.toNat := by
  have hbits : ∀ a : BitVec 4, a.extractLsb' 2 2 ≠ 0 ↔ 4 ≤ a.toNat := by decide
  rw [← hbits]
  by_cases h : arg.extractLsb' 2 2 = 0
  · rw [decodeM, if_neg (not_not.mpr h)]
    split_ifs <;> simpa using h
  · rw [decodeM, if_pos h]
    simpa using h

/-- The causes of R51 by the fields: an undefined `OP`, or an `ARG` that the format of the row forbids. -/
theorem exists_decodeFields_eq_error_iff {op arg : BitVec 4} :
    (∃ e, decodeFields op arg = .error e) ↔
      6 ≤ op.toNat ∨
      ((op.toNat = 0 ∨ op.toNat = 2 ∨ op.toNat = 4 ∨ op.toNat = 5) ∧ arg.toNat ≠ 0) ∨
      (op.toNat = 3 ∧ 4 ≤ arg.toNat) := by
  unfold decodeFields
  split_ifs with h0 h1 h2 h3 h4 h5
  · simp [h0, exists_decodeZ_eq_error_iff]
  · simp [h1]
  · simp [h2, exists_decodeZ_eq_error_iff]
  · simp [h3, exists_decodeM_eq_error_iff]
  · simp [h4, exists_decodeZ_eq_error_iff]
  · simp [h5, exists_decodeZ_eq_error_iff]
  · have hop : 6 ≤ op.toNat := by bv_omega
    simp [hop]

theorem exists_decode_eq_error_iff (w : Word) :
    (∃ e, decode w = .error e) ↔
      w.toNat / 256 ≠ 0 ∨ 6 ≤ w.toNat / 16 % 16 ∨
        ((w.toNat / 16 % 16 = 0 ∨ w.toNat / 16 % 16 = 2 ∨ w.toNat / 16 % 16 = 4 ∨ w.toNat / 16 % 16 = 5) ∧
          w.toNat % 16 ≠ 0) ∨
        (w.toNat / 16 % 16 = 3 ∧ 4 ≤ w.toNat % 16) := by
  by_cases hrsv : w.toNat / 256 = 0
  · rw [decode_eq, if_neg (not_not.mpr hrsv), exists_decodeFields_eq_error_iff]
    simp [hrsv]
  · simp [decode_of_rsv_ne_zero w hrsv, hrsv]

end Sys2Proof

namespace Sys2Proof.Machine

/-- The one effect of an illegal word outside fail-stop (R51, R110). -/
theorem hostWrite_of_illegal_word {w : Word} {s : State} (hs : s.err = .noError)
    (hw : ∃ e, decode w = .error e) : hostWrite 0 w s = .next (s.setErr .illcmd) := by
  obtain ⟨e, hw⟩ := hw
  rw [hostWrite_cmd w hs, execute, hw, raise_of_noError .illcmd hs]

end Sys2Proof.Machine

open Sys2Proof Sys2Proof.Machine

/-- Settles O1: row by row, the encoder's word is the decoder's. -/
theorem decodeEncodeAgree : Obligations.DecodeEncodeAgree :=
  ⟨fun _ => decode_encode, fun _ _ => wf_and_encode_of_decode⟩

/-- Settles O3: the illegal words by their fields, the one effect of writing one, and the two counts. -/
theorem illegalCommandWordRaisesIllcmd : Obligations.IllegalCommandWordRaisesIllcmd :=
  ⟨exists_decode_eq_error_iff, fun w s hw hs => hostWrite_of_illegal_word hs hw, by decide +kernel,
    by decide⟩

/-- Settles O4: each word is the one of its row. -/
theorem writtenWordsDecode : Obligations.WrittenWordsDecode :=
  ⟨rfl, rfl, rfl, rfl, rfl, rfl, rfl, rfl, rfl, rfl⟩
end

section
/-! The commands in fail-stop (R152) and the step (R10): which command a write of its word runs, and what an
access does to the model's own fields. -/

namespace Sys2Proof.Machine

/-! ## Commands and their words, fail-stop included -/

theorem effect_of_failStop {i : Instr} {s : State} (hs : FailStop s) (hclr : i ≠ .clrerr) (hsrst : i ≠ .srst) :
    effect i s = s := by
  cases i with
  | nop => rfl
  | ldkey kw => exact unlessFailStop_of_failStop _ hs
  | clrkey | ecbdec | ecbenc | cbcdec | cbcenc => exact unlessFailStop_of_failStop _ hs
  | clrerr => exact absurd rfl hclr
  | srst => exact absurd rfl hsrst

/-- In fail-stop too, where the port's two exact words are the two commands that pass the gate. -/
theorem hostWrite_cmd_of_decode {w : Word} {i : Instr} (hd : decode w = .ok i) (s : State) :
    hostWrite 0 w s = exec i s := by
  by_cases hs : s.err = .noError
  · rw [hostWrite_cmd w hs, execute, hd]
  · obtain ⟨-, rfl⟩ := wf_and_encode_of_decode hd
    rw [hostWrite_of_failStop 0 _ hs, exec_eq i s]
    by_cases hclr : i = .clrerr
    · subst hclr; rfl
    by_cases hsrst : i = .srst
    · subst hsrst; rfl
    have hword {j : Instr} (hj : j.wf = true) (hne : i ≠ j) : encode i ≠ encode j := fun h =>
      hne (Except.ok.inj (hd.symm.trans (h ▸ decode_encode hj)))
    have h40 : encode i ≠ 0x40 := hword (j := .clrerr) rfl hclr
    have h50 : encode i ≠ 0x50 := hword (j := .srst) rfl hsrst
    rw [if_neg fun h => h40 h.2, if_neg fun h => h50 h.2, effect_of_failStop hs hclr hsrst]

/-! ## One access and the model's own fields (log 1) -/

theorem hostWrite_port {n : Nat} {v : Word} {s t : State} (h : hostWrite n v s = .next t) :
    t.pending = s.pending ∧ t.returned = s.returned := by
  rcases hostWrite_cases h with ⟨-, -, -, rfl⟩ | ⟨-, -, -, rfl⟩ | ⟨-, -, -, rfl⟩ | ⟨-, -, -, rfl⟩ |
    ⟨-, -, i, -, rfl⟩ | ⟨-, -, rfl⟩ | ⟨-, -, rfl⟩ | ⟨-, -, rfl⟩ | ⟨-, -, rfl⟩ | ⟨-, -, rfl⟩ | ⟨-, -, rfl⟩
  iterate 3 exact ⟨rfl, rfl⟩
  · exact ⟨raise_pending _ s, raise_returned _ s⟩
  · exact effect_port i s
  iterate 5 exact ⟨rfl, rfl⟩
  · exact ⟨raise_pending _ s, raise_returned _ s⟩

theorem hostRead_port (n : Nat) (s : State) :
    (hostRead n s).2.pending = s.pending ∧ (hostRead n s).2.returned = s.returned := by
  rcases hostRead_state n s with h | h <;> simp [h]

/-- An access takes nothing from the accesses still to come, and only a read adds a value. -/
theorem perform_port {a : HostAccess} {s t : State} (h : perform a s = .next t) :
    t.pending = s.pending ∧ t.returned = s.returned ++ readValue s a := by
  obtain ⟨n, rfl, rfl⟩ | ⟨n, v, rfl, hw⟩ | ⟨rfl, rfl⟩ := perform_cases h
  · obtain ⟨hp, hr⟩ := hostRead_port n s
    simp [hp, hr, readValue]
  · obtain ⟨hp, hr⟩ := hostWrite_port hw
    simp [hp, hr, readValue]
  · simp [readValue]

theorem readValue_setPending (s : State) (p : List HostAccess) (a : HostAccess) :
    readValue (s.setPending p) a = readValue s a := by
  cases a with
  | read n => rw [readValue, hostRead_setPending, readValue]
  | write n v => rfl
  | reset => rfl

/-! ## The step -/

theorem step_of_pending_nil {s : State} (h : s.pending = []) : step s = .next s := by
  rw [step, nextAccess, h]

theorem step_of_pending_cons {s : State} {a : HostAccess} {rest : List HostAccess} (h : s.pending = a :: rest) :
    step s = perform a (s.setPending rest) := by
  rw [step, nextAccess, h]

theorem step_answers (s : State) : ∃ t, step s = .next t := by
  cases h : s.pending with
  | nil => exact ⟨s, step_of_pending_nil h⟩
  | cons a rest => rw [step_of_pending_cons h]; exact perform_answers a _

theorem performAll_answers (as : List HostAccess) (s : State) : ∃ t, performAll as s = .next t := by
  induction as generalizing s with
  | nil => exact ⟨s, rfl⟩
  | cons a as ih =>
    obtain ⟨u, hu⟩ := perform_answers a s
    rw [performAll_cons a as hu]
    exact ih u

theorem run_succ_of_step (n : Nat) {s u : State} (h : step s = .next u) :
    Host.Core.run Sys2Proof.core (n + 1) s = Host.Core.run Sys2Proof.core n u := by
  have hcore : Sys2Proof.core.step s = .next u := h
  simp only [Host.Core.run, hcore]

theorem run_answers (n : Nat) (s : State) : ∃ t, Host.Core.run Sys2Proof.core n s = .next t := by
  induction n generalizing s with
  | zero => exact ⟨s, rfl⟩
  | succ n ih =>
    obtain ⟨u, hu⟩ := step_answers s
    rw [run_succ_of_step n hu]
    exact ih u

end Sys2Proof.Machine

open Sys2Proof Sys2Proof.Machine

/-- Settles O6: the step is the first access on the state without it, and no access touches the rest of the
run. -/
theorem stepTakesOneAccess : Obligations.StepTakesOneAccess := by
  refine ⟨fun s => step_of_pending_nil, fun s t a rest hp h => ?_⟩
  rw [step_of_pending_cons hp] at h
  have hport := perform_port h
  rwa [readValue_setPending] at hport

/-- Settles O7: every access answers a next state, and so does every run, by induction on its length. -/
theorem everyRunHasANextState : Obligations.EveryRunHasANextState :=
  ⟨step_answers, performAll_answers, run_answers⟩

/-- Settles O5: the step is the write of the word to CMD, which runs the command in every state. -/
theorem stepRunsDecodedCommand : Obligations.StepRunsDecodedCommand := by
  intro s w rest i hp hd
  rw [step_of_pending_cons hp]
  exact hostWrite_cmd_of_decode hd _

/-- Settles O8: the placed word is the first access, and taking it gives the state before it was placed. -/
theorem placedCommandRunsNext : Obligations.PlacedCommandRunsNext := by
  intro s w i hd
  have hword : BitVec.ofNat 64 (w.toNat % 2 ^ 64) = w := by
    rw [Nat.mod_eq_of_lt w.isLt, BitVec.ofNat_toNat, BitVec.setWidth_eq]
  rw [State.withFetchWord, hword, step_of_pending_cons rfl]
  exact hostWrite_cmd_of_decode hd s

/-- Settles O17: the gate of every command but the two that leave fail-stop. -/
theorem commandsIgnoredInFailStop : Obligations.CommandsIgnoredInFailStop := by
  intro i s hs hclr hsrst
  rw [exec_eq, effect_of_failStop hs hclr hsrst]
end

section
/-! Who writes what (R24), and the invariant of the store (R20, R91, R93): everything a command can do, in the
terms of the state it leaves, read column by column. -/

namespace Sys2Proof.Machine

/-! ## Everything a command can do -/

theorem effect_ldkey_cases (kw : Nat) (s : State) :
    effect (.ldkey kw) s = s ∨ effect (.ldkey kw) s = s.setErr .invkey ∨
      ((kw = 1 ∨ kw = 2 ∨ kw = 3) ∧
        effect (.ldkey kw) s = s.setStore (some (loadSets (keyOperand kw s)))) := by
  by_cases hs : s.err = .noError
  · by_cases hk : kw = 1 ∨ kw = 2 ∨ kw = 3
    · exact .inr (.inr ⟨hk, effect_ldkey_of_legal hs hk⟩)
    · exact .inr (.inl (effect_ldkey_of_illegal hs hk))
  · exact .inl (unlessFailStop_of_failStop _ hs)

theorem effect_processing_cases {i : Instr} (hi : i = .ecbdec ∨ i = .ecbenc ∨ i = .cbcdec ∨ i = .cbcenc)
    (s : State) :
    effect i s = s ∨ effect i s = s.setErr .nokey ∨ (s.err = .noError ∧ ∃ sets, s.store = some sets) := by
  by_cases hs : s.err = .noError
  · cases hk : s.store with
    | none => exact .inr (.inl (effect_of_noKey hi hs hk))
    | some sets => exact .inr (.inr ⟨hs, sets, rfl⟩)
  · exact .inl (effect_of_failStop hs (by rintro rfl; simp at hi) (by rintro rfl; simp at hi))

/-- A command writes nothing, or ERR alone, or what its row of R24 says. -/
theorem effect_cases (i : Instr) (s : State) :
    effect i s = s ∨
    (∃ e, effect i s = s.setErr e) ∨
    (∃ kw, (kw = 1 ∨ kw = 2 ∨ kw = 3) ∧ i = .ldkey kw ∧
      effect i s = s.setStore (some (loadSets (keyOperand kw s)))) ∨
    (i = .clrkey ∧ effect i s = forgetKey s) ∨
    ((i = .ecbdec ∨ i = .ecbenc) ∧ ∃ x, effect i s = s.setDout x) ∨
    ((i = .cbcdec ∨ i = .cbcenc) ∧ ∃ x y, effect i s = (s.setDout x).setIv y) ∨
    (i = .srst ∧ effect i s = resetBlock s) := by
  by_cases hp : i = .ecbdec ∨ i = .ecbenc ∨ i = .cbcdec ∨ i = .cbcenc
  · obtain h | h | ⟨he, sets, hs⟩ := effect_processing_cases hp s
    · exact .inl h
    · exact .inr (.inl ⟨_, h⟩)
    · obtain rfl | rfl | rfl | rfl := hp
      · exact .inr (.inr (.inr (.inr (.inl ⟨.inl rfl, _, effect_ecbdec he hs⟩))))
      · exact .inr (.inr (.inr (.inr (.inl ⟨.inr rfl, _, effect_ecbenc he hs⟩))))
      · exact .inr (.inr (.inr (.inr (.inr (.inl ⟨.inl rfl, _, _, effect_cbcdec he hs⟩)))))
      · exact .inr (.inr (.inr (.inr (.inr (.inl ⟨.inr rfl, _, _, effect_cbcenc he hs⟩)))))
  · cases i with
    | ecbdec | ecbenc | cbcdec | cbcenc => simp at hp
    | nop => exact .inl rfl
    | clrerr => exact .inr (.inl ⟨.noError, rfl⟩)
    | srst => simp [effect]
    | clrkey =>
      by_cases hs : s.err = .noError
      · simp [effect_clrkey hs]
      · exact .inl (unlessFailStop_of_failStop _ hs)
    | ldkey kw =>
      obtain h | h | ⟨hk, h⟩ := effect_ldkey_cases kw s
      · exact .inl h
      · exact .inr (.inl ⟨_, h⟩)
      · exact .inr (.inr (.inl ⟨kw, hk, rfl, h⟩))

/-! ## The columns of R24 -/

/-- The table of R24 for the commands: which command may change which piece of state. -/
theorem effect_writes (i : Instr) (s : State) :
    ((effect i s).key0 ≠ s.key0 ∨ (effect i s).key1 ≠ s.key1 ∨ (effect i s).key2 ≠ s.key2 →
      i = .clrkey ∨ i = .srst) ∧
    ((effect i s).din ≠ s.din → i = .srst) ∧
    ((effect i s).dout ≠ s.dout → i = .srst ∨ i = .ecbdec ∨ i = .ecbenc ∨ i = .cbcdec ∨ i = .cbcenc) ∧
    ((effect i s).iv ≠ s.iv → i = .srst ∨ i = .cbcdec ∨ i = .cbcenc) ∧
    ((effect i s).store ≠ s.store → i = .srst ∨ i = .clrkey ∨ i = .ldkey 1 ∨ i = .ldkey 2 ∨ i = .ldkey 3) := by
  obtain h | ⟨e, h⟩ | ⟨kw, rfl | rfl | rfl, rfl, h⟩ | ⟨rfl, h⟩ | ⟨rfl | rfl, x, h⟩ | ⟨rfl | rfl, x, y, h⟩ |
    ⟨rfl, h⟩ := effect_cases i s <;>
  simp [h, forgetKey]

/-! ## The invariant of the store -/

theorem storeFromKeyWords_of_store_eq {s t : State} (h : t.store = s.store) (hs : StoreFromKeyWords s) :
    StoreFromKeyWords t := by
  rwa [StoreFromKeyWords, h]

theorem storeFromKeyWords_of_store_none {s : State} (h : s.store = none) : StoreFromKeyWords s := by
  intro sets hsets
  rw [h] at hsets
  cases hsets

/-- The key guard selects one word, or three of which the middle one differs from both others (R91). -/
theorem keyGuard_cases {kw : Nat} (hk : kw = 1 ∨ kw = 2 ∨ kw = 3) (k0 k1 k2 : Word) :
    (∃ w, keyGuard kw k0 k1 k2 = .one w) ∨
      ∃ w0 w1 w2, w1 ≠ w0 ∧ w1 ≠ w2 ∧ keyGuard kw k0 k1 k2 = .three w0 w1 w2 := by
  obtain rfl | rfl | rfl := hk
  · exact .inl ⟨k0, keyGuard_one_word k0 k1 k2⟩
  · rw [keyGuard_two_words]
    split_ifs with h10
    · exact .inl ⟨k0, rfl⟩
    · exact .inr ⟨k0, k1, k0, h10, h10, rfl⟩
  · rw [keyGuard_three_words]
    split_ifs with h12 h10
    · exact .inl ⟨k0, rfl⟩
    · exact .inl ⟨k2, rfl⟩
    · exact .inr ⟨k0, k1, k2, h10, h12, rfl⟩

/-- Loading what the key guard selects establishes the invariant, whatever the store held (R93). -/
theorem storeFromKeyWords_of_loaded {kw : Nat} (hk : kw = 1 ∨ kw = 2 ∨ kw = 3) {k0 k1 k2 : Word} {s : State}
    (h : s.store = some (loadSets (keyGuard kw k0 k1 k2))) : StoreFromKeyWords s := by
  intro sets hsets
  obtain rfl : loadSets (keyGuard kw k0 k1 k2) = sets := Option.some.inj (h.symm.trans hsets)
  obtain ⟨w, hw⟩ | ⟨w0, w1, w2, h10, h12, hw⟩ := keyGuard_cases hk k0 k1 k2
  · exact .inl ⟨w, by rw [hw]; rfl⟩
  · exact .inr ⟨w0, w1, w2, h10, h12, by rw [hw]; rfl⟩

theorem storeFromKeyWords_effect {s : State} (hs : StoreFromKeyWords s) (i : Instr) :
    StoreFromKeyWords (effect i s) := by
  obtain h | ⟨e, h⟩ | ⟨kw, hk, -, h⟩ | ⟨-, h⟩ | ⟨-, x, h⟩ | ⟨-, x, y, h⟩ | ⟨-, h⟩ := effect_cases i s <;> rw [h]
  · exact hs
  · exact storeFromKeyWords_of_store_eq rfl hs
  · exact storeFromKeyWords_of_loaded hk rfl
  · exact storeFromKeyWords_of_store_none rfl
  · exact storeFromKeyWords_of_store_eq rfl hs
  · exact storeFromKeyWords_of_store_eq rfl hs
  · exact storeFromKeyWords_of_store_none rfl

theorem storeFromKeyWords_perform {a : HostAccess} {s t : State} (hs : StoreFromKeyWords s)
    (h : perform a s = .next t) : StoreFromKeyWords t := by
  obtain ⟨n, rfl, rfl⟩ | ⟨n, v, rfl, hw⟩ | ⟨rfl, rfl⟩ := perform_cases h
  · refine storeFromKeyWords_of_store_eq (s := s) ?_ hs
    obtain hr | hr := hostRead_state n s <;> simp [hr]
  · rcases hostWrite_cases hw with ⟨-, -, -, rfl⟩ | ⟨-, -, -, rfl⟩ | ⟨-, -, -, rfl⟩ | ⟨-, -, -, rfl⟩ |
      ⟨-, -, i, -, rfl⟩ | ⟨-, -, rfl⟩ | ⟨-, -, rfl⟩ | ⟨-, -, rfl⟩ | ⟨-, -, rfl⟩ | ⟨-, -, rfl⟩ | ⟨-, -, rfl⟩
    · exact storeFromKeyWords_of_store_eq rfl hs
    · exact storeFromKeyWords_of_store_none rfl
    · exact hs
    · exact storeFromKeyWords_of_store_eq (raise_store _ s) hs
    · exact storeFromKeyWords_effect hs i
    iterate 5 exact storeFromKeyWords_of_store_eq rfl hs
    · exact storeFromKeyWords_of_store_eq (raise_store _ s) hs
  · exact storeFromKeyWords_of_store_none rfl

theorem storeFromKeyWords_step {s t : State} (hs : StoreFromKeyWords s) (h : step s = .next t) :
    StoreFromKeyWords t := by
  cases hp : s.pending with
  | nil =>
    rw [step_of_pending_nil hp, Host.Outcome.next.injEq] at h
    exact h ▸ hs
  | cons a rest =>
    rw [step_of_pending_cons hp] at h
    exact storeFromKeyWords_perform (storeFromKeyWords_of_store_eq (s := s) (t := s.setPending rest) rfl hs) h

end Sys2Proof.Machine

open Sys2Proof Sys2Proof.Machine

/-- Settles O26: the accesses case by case; the row of a command is `effect_writes`. -/
theorem whoWritesWhat : Obligations.WhoWritesWhat := by
  intro a s t h
  obtain ⟨n, rfl, rfl⟩ | ⟨n, v, rfl, hw⟩ | ⟨rfl, rfl⟩ := perform_cases h
  · obtain hr | hr := hostRead_state n s <;> simp [hr]
  · rcases hostWrite_cases hw with ⟨-, -, -, rfl⟩ | ⟨-, rfl, rfl, rfl⟩ | ⟨-, -, -, rfl⟩ | ⟨-, -, -, rfl⟩ |
      ⟨-, rfl, i, hd, rfl⟩ | ⟨-, rfl, rfl⟩ | ⟨-, rfl, rfl⟩ | ⟨-, rfl, rfl⟩ | ⟨-, rfl, rfl⟩ | ⟨-, rfl, rfl⟩ |
      ⟨-, -, rfl⟩
    · simp [clearError]
    iterate 3 simp
    · obtain ⟨-, rfl⟩ := wf_and_encode_of_decode hd
      obtain ⟨hkey, hdin, hdout, hiv, hstore⟩ := effect_writes i s
      refine ⟨fun hne => ?_, fun hne => ?_, fun hne => ?_, fun hne => ?_, fun hne => ?_, fun hne => ?_,
        fun hne => ?_⟩
      · obtain rfl | rfl := hkey (.inl hne) <;> simp [encode]
      · obtain rfl | rfl := hkey (.inr (.inl hne)) <;> simp [encode]
      · obtain rfl | rfl := hkey (.inr (.inr hne)) <;> simp [encode]
      · obtain rfl := hdin hne; simp [encode]
      · obtain rfl | rfl | rfl | rfl | rfl := hdout hne <;> simp [encode]
      · obtain rfl | rfl | rfl := hiv hne <;> simp [encode]
      · obtain rfl | rfl | rfl | rfl | rfl := hstore hne <;> simp [encode]
    iterate 6 simp
  · simp

/-- Settles O27: LDKEY alone puts something into the store, and what it puts there is a result of the key
guard. -/
theorem storeInvariantKept : Obligations.StoreInvariantKept := fun _ _ => storeFromKeyWords_step

/-- Settles O28: the reset state holds no key. -/
theorem storeInvariantAtReset : Obligations.StoreInvariantAtReset := storeFromKeyWords_of_store_none rfl
end

section
/-! Errors over accesses and runs (R18, R151, R152, R154), and reset (R170). -/

namespace Sys2Proof.Machine

/-! ## Fail-stop over runs -/

theorem sameBlock_refl (s : State) : SameBlock s s := ⟨rfl, rfl, rfl, rfl, rfl, rfl, rfl, rfl⟩

theorem sameBlock_trans {s t u : State} (hst : SameBlock s t) (htu : SameBlock t u) : SameBlock s u := by
  obtain ⟨h1, h2, h3, h4, h5, h6, h7, h8⟩ := hst
  obtain ⟨g1, g2, g3, g4, g5, g6, g7, g8⟩ := htu
  exact ⟨g1.trans h1, g2.trans h2, g3.trans h3, g4.trans h4, g5.trans h5, g6.trans h6, g7.trans h7,
    g8.trans h8⟩

/-- In fail-stop a write that does not end it is ignored. -/
theorem hostWrite_of_not_endsFailStop {n : Nat} {v : Word} {s : State} (hs : FailStop s)
    (ha : endsFailStop (.write n v) = false) : hostWrite n v s = .next s := by
  have hclr : ¬(n = 0 ∧ v = 0x40) := by rintro ⟨rfl, rfl⟩; simp [endsFailStop] at ha
  have hsrst : ¬(n = 0 ∧ v = 0x50) := by rintro ⟨rfl, rfl⟩; simp [endsFailStop] at ha
  rw [hostWrite_of_failStop n v hs, if_neg hclr, if_neg hsrst]

theorem sameBlock_perform_of_failStop {a : HostAccess} {s t : State} (hs : FailStop s)
    (ha : endsFailStop a = false) (h : perform a s = .next t) : SameBlock s t := by
  cases a with
  | read n =>
    simp only [perform, hostRead_failStop n hs, Host.Outcome.next.injEq] at h
    subst h
    exact sameBlock_refl s
  | write n v =>
    rw [perform, hostWrite_of_not_endsFailStop hs ha, Host.Outcome.next.injEq] at h
    exact h ▸ sameBlock_refl s
  | reset => cases ha

/-- CLRERR, SRST and reset make ERR 0. -/
theorem err_perform_of_endsFailStop {a : HostAccess} {s t : State} (hs : FailStop s)
    (ha : endsFailStop a = true) (h : perform a s = .next t) : t.err = .noError := by
  cases a with
  | read n => cases ha
  | write n v =>
    obtain ⟨rfl, rfl | rfl⟩ : n = 0 ∧ (v = 0x40 ∨ v = 0x50) := by simpa [endsFailStop] using ha
    all_goals
      rw [perform, hostWrite_of_failStop _ _ hs] at h
      cases h
      rfl
  | reset =>
    cases h
    rfl

theorem sameBlock_performAll_of_failStop {as : List HostAccess} {s t : State} (hs : FailStop s)
    (has : ∀ a ∈ as, endsFailStop a = false) (h : performAll as s = .next t) : SameBlock s t := by
  induction as generalizing s with
  | nil =>
    rw [performAll, Host.Outcome.next.injEq] at h
    exact h ▸ sameBlock_refl s
  | cons a as ih =>
    obtain ⟨ha, hrest⟩ := List.forall_mem_cons.mp has
    obtain ⟨u, hu⟩ := perform_answers a s
    rw [performAll_cons a as hu] at h
    have hsu := sameBlock_perform_of_failStop hs ha hu
    obtain ⟨-, -, -, -, -, -, -, herr⟩ := id hsu
    have hsu' : FailStop u := by rwa [FailStop, herr]
    exact sameBlock_trans hsu (ih hsu' hrest h)

/-! ## What raises, and which write records which error (R151, R154) -/

theorem store_none_of_nsets {s : State} (h : nsets s = 0) : s.store = none := by
  cases hs : s.store with
  | none => rfl
  | some sets => exact absurd ((nsets_of_store_some hs).symm.trans h) sets.size_ne_zero

/-- The error a command records outside fail-stop: INVKEY for a bad key length, NOKEY for a processing command
with no key, and else none. -/
theorem effect_err_cases {s : State} (he : s.err = .noError) (i : Instr) :
    ((effect i s).err = .invkey ∧ ∃ kw, i = .ldkey kw ∧ legalKeyLength kw = false) ∨
    ((effect i s).err = .nokey ∧ s.store = none ∧
      (i = .ecbdec ∨ i = .ecbenc ∨ i = .cbcdec ∨ i = .cbcenc)) ∨
    ((effect i s).err = .noError ∧ (∀ kw, i = .ldkey kw → legalKeyLength kw = true) ∧
      (s.store = none → ¬(i = .ecbdec ∨ i = .ecbenc ∨ i = .cbcdec ∨ i = .cbcenc))) := by
  by_cases hp : i = .ecbdec ∨ i = .ecbenc ∨ i = .cbcdec ∨ i = .cbcenc
  · cases hs : s.store with
    | none => exact .inr (.inl ⟨by rw [effect_of_noKey hp he hs]; rfl, rfl, hp⟩)
    | some sets =>
      obtain rfl | rfl | rfl | rfl := hp
      · simp [effect_ecbdec he hs, ecbStep, he]
      · simp [effect_ecbenc he hs, ecbStep, he]
      · simp [effect_cbcdec he hs, cbcDecStep, he]
      · simp [effect_cbcenc he hs, cbcEncStep, he]
  · cases i with
    | ecbdec | ecbenc | cbcdec | cbcenc => simp at hp
    | nop => simp [effect, he]
    | clrerr => simp [effect, clearError]
    | srst => simp [effect]
    | clrkey => simp [effect_clrkey he, forgetKey, he]
    | ldkey kw =>
      cases hk : legalKeyLength kw with
      | true => simp [effect_ldkey_of_legal he ((legalKeyLength_iff kw).mp hk), he, hk]
      | false =>
        have hill : ¬(kw = 1 ∨ kw = 2 ∨ kw = 3) := by simp [← legalKeyLength_iff, hk]
        simp [effect_ldkey_of_illegal he hill, hk]

end Sys2Proof.Machine

open Sys2Proof Sys2Proof.Machine

/-- Settles O14: all three are `resetBlock`. -/
theorem bothResetsGiveTheResetState : Obligations.BothResetsGiveTheResetState := fun s =>
  ⟨resetBlock s, rfl, exec_eq .srst s, hostWrite_cmd_of_decode (i := .srst) rfl s,
    sameBlock_reset_resetBlock s, resetBlock_pending s, resetBlock_returned s⟩

/-- Settles O15: `raise` by definition, and each place that raises by the rule of the command or the access. -/
theorem raiseRule : Obligations.RaiseRule := by
  refine ⟨fun e s => rfl, fun w s => hostWrite_of_illegal_word, fun kw s he hk => ?_, fun i s hi he hn => ?_,
    fun n v s he hn => ?_, fun n s he hn => ?_⟩
  · rw [exec_eq, effect_ldkey_of_illegal he hk]; rfl
  · exact exec_of_noKey hi he (store_none_of_nsets hn)
  · rw [hostWrite_of_unwritable hn, raise_of_noError _ he]; rfl
  · rw [hostRead_of_unreadable hn, raise_of_noError _ he]; rfl

/-- Settles O18: in fail-stop an access that does not end it leaves the block as it is, so fail-stop lasts. -/
theorem errorStaysThroughEveryRun : Obligations.ErrorStaysThroughEveryRun :=
  fun _ _ _ => sameBlock_performAll_of_failStop

/-- Settles O19: with an error recorded, only an access that ends fail-stop changes ERR, and it makes it 0. -/
theorem firstErrorWins : Obligations.FirstErrorWins := by
  intro a s t h hne
  by_cases hs : s.err = .noError
  · exact .inl ⟨hs, by rwa [← hs]⟩
  · cases ha : endsFailStop a with
    | false =>
      obtain ⟨-, -, -, -, -, -, -, herr⟩ := sameBlock_perform_of_failStop hs ha h
      exact absurd herr hne
    | true => exact .inr ⟨err_perform_of_endsFailStop hs ha h, rfl⟩

/-- Settles O20: the write by the first check that stops it, and the command's own precondition last. -/
theorem orderOfChecks : Obligations.OrderOfChecks := by
  refine fun n v s t h => ⟨fun hs ha => ?_, fun he => ?_⟩
  · rw [hostWrite_of_not_endsFailStop hs ha, Host.Outcome.next.injEq] at h
    exact h.symm
  · rcases hostWrite_cases h with ⟨hs, -⟩ | ⟨hs, -⟩ | ⟨hs, -⟩ | ⟨-, rfl, ⟨e, hd⟩, rfl⟩ | ⟨-, rfl, i, hd, rfl⟩ |
      ⟨-, rfl, rfl⟩ | ⟨-, rfl, rfl⟩ | ⟨-, rfl, rfl⟩ | ⟨-, rfl, rfl⟩ | ⟨-, rfl, rfl⟩ | ⟨-, hn, rfl⟩
    iterate 3 exact absurd he hs
    · simp [raise_of_noError _ he, hd]
    · obtain ⟨herr, kw, rfl, hk⟩ | ⟨herr, hs, rfl | rfl | rfl | rfl⟩ | ⟨herr, hk, hp⟩ := effect_err_cases he i
      · simp [herr, hd, hk]
      iterate 4 simp [herr, hd, hs]
      · simpa [herr, hd] using And.intro hk hp
    iterate 5 simp [he]
    · have hn0 : n ≠ 0 := by omega
      simp [raise_of_noError _ he, hn, hn0]
end

section
/-! STATUS by its three fields (R17), and what a read can see of a key (R12, R20). -/

namespace Sys2Proof.Machine

/-- STATUS from `ERR`, TRIPLE and KEYV: the formula of R17. -/
def statusWord (code : BitVec 4) (triple keyv : Bool) : Word :=
  (code.setWidth 64 <<< 4) ||| ((BitVec.ofBool triple).setWidth 64 <<< 1) ||| (BitVec.ofBool keyv).setWidth 64

theorem status_eq (s : State) : status s = statusWord s.err.code (triple s) (keyv s) := rfl

/-- The formula puts each field at its place and leaves every other bit 0. -/
theorem statusWord_fields : ∀ (code : BitVec 4) (triple keyv : Bool),
    (statusWord code triple keyv).getLsbD 0 = keyv ∧ (statusWord code triple keyv).getLsbD 1 = triple ∧
    (statusWord code triple keyv).extractLsb' 4 4 = code ∧
    (statusWord code triple keyv).extractLsb' 2 2 = 0 ∧
    (statusWord code triple keyv).extractLsb' 8 56 = 0 := by decide +kernel

/-- What `IsSingle` and `IsTriple` read (R138): the two key bits together. -/
theorem statusWord_key_bits : ∀ (code : BitVec 4) (triple keyv : Bool),
    (statusWord code triple keyv &&& 0x3 == 0x1) = (keyv && !triple) ∧
    (statusWord code triple keyv &&& 0x3 == 0x3) = (keyv && triple) := by decide +kernel

theorem nsets_cases (s : State) : nsets s = 0 ∨ nsets s = 1 ∨ nsets s = 3 := by
  cases hs : s.store with
  | none => exact .inl (nsets_of_store_none hs)
  | some sets =>
    rw [nsets_of_store_some hs]
    cases sets with
    | one a => exact .inr (.inl rfl)
    | three a b c => exact .inr (.inr rfl)

theorem keyv_eq_true_iff {s : State} : keyv s = true ↔ nsets s ≠ 0 := bne_iff_ne

theorem isSingle_iff (s : State) : isSingle s = true ↔ nsets s = 1 := by
  rw [isSingle, hostRead_status, status_eq, (statusWord_key_bits _ _ _).1]
  obtain h | h | h := nsets_cases s <;> simp [keyv, triple, h]

theorem isTriple_iff (s : State) : isTriple s = true ↔ nsets s = 3 := by
  rw [isTriple, hostRead_status, status_eq, (statusWord_key_bits _ _ _).2]
  obtain h | h | h := nsets_cases s <;> simp [keyv, triple, h]

theorem code_toNat_le (e : Err) : e.code.toNat ≤ 4 := by
  cases e <;> decide

theorem status_eq_of_nsets {s t : State} (hn : nsets t = nsets s) (he : t.err = s.err) : status t = status s := by
  rw [status, status, triple, triple, keyv, keyv, hn, he]

end Sys2Proof.Machine

open Sys2Proof.Machine

/-- Settles O12: the fields of the formula, with KEYV and TRIPLE as what they say of the number of sets. -/
theorem statusLayout : Obligations.StatusLayout := by
  refine ⟨⟨rfl, rfl, rfl, rfl, rfl⟩, fun s => ?_⟩
  obtain ⟨hkeyv, htriple, herr, hlow, hhigh⟩ := statusWord_fields s.err.code (triple s) (keyv s)
  rw [← status_eq] at hkeyv htriple herr hlow hhigh
  rw [hkeyv, htriple, keyv_eq_true_iff, triple_eq_true_iff]
  exact ⟨congrArg Prod.fst (hostRead_status s), Iff.rfl, Iff.rfl, herr, code_toNat_le s.err, hlow, hhigh,
    fun h => by omega, isSingle_iff s, isTriple_iff s⟩

/-- Settles O49: a readable register is a field the two states share, or STATUS, which sees of the store only
its size. -/
theorem keysCannotBeRead : Obligations.KeysCannotBeRead := by
  intro s t hdin hdout hiv herr hn n
  obtain rfl | rfl | rfl | rfl | hn' :
      n = 1 ∨ n = 5 ∨ n = 6 ∨ n = 7 ∨ (n = 0 ∨ n = 2 ∨ n = 3 ∨ n = 4 ∨ 8 ≤ n) := by omega
  · exact status_eq_of_nsets hn herr
  · exact hdin
  · exact hdout
  · exact hiv
  · rw [hostRead_of_unreadable hn', hostRead_of_unreadable hn']
end

section
/-! The key registers are not the key (R173): two states that differ in KEY0, KEY1 and KEY2 alone are carried
into two such states by every access that is no LDKEY, one operation at a time. -/

namespace Sys2Proof.Machine

/-! ## The relation under the shared operations -/

theorem sameButKeyRegisters_refl (s : State) : SameButKeyRegisters s s := ⟨rfl, rfl, rfl, rfl, rfl, rfl, rfl⟩

/-- The two states are one state with other values in the key registers. -/
theorem sameButKeyRegisters_iff {s t : State} :
    SameButKeyRegisters s t ↔ ∃ k0 k1 k2, t = ((s.setKey0 k0).setKey1 k1).setKey2 k2 := by
  constructor
  · rintro ⟨h1, h2, h3, h4, h5, h6, h7⟩
    refine ⟨t.key0, t.key1, t.key2, ?_⟩
    cases t
    simp only at h1 h2 h3 h4 h5 h6 h7
    subst h1 h2 h3 h4 h5 h6 h7
    rfl
  · rintro ⟨k0, k1, k2, rfl⟩
    exact sameButKeyRegisters_refl s

theorem sameButKeyRegisters_raise {s t : State} (e : Err) (h : SameButKeyRegisters s t) :
    SameButKeyRegisters (raise e s) (raise e t) := by
  obtain ⟨k0, k1, k2, rfl⟩ := sameButKeyRegisters_iff.mp h
  rw [raise_eq_setErr, raise_eq_setErr]
  exact sameButKeyRegisters_refl _

theorem sameButKeyRegisters_unlessFailStop {act : State → State} {s t : State} (h : SameButKeyRegisters s t)
    (hact : SameButKeyRegisters (act s) (act t)) :
    SameButKeyRegisters (unlessFailStop act s) (unlessFailStop act t) := by
  obtain ⟨-, -, -, -, herr, -, -⟩ := id h
  by_cases hs : s.err = .noError
  · rwa [unlessFailStop_of_noError _ hs, unlessFailStop_of_noError _ (herr.trans hs)]
  · rwa [unlessFailStop_of_failStop _ hs, unlessFailStop_of_failStop _ (by rwa [herr])]

theorem sameButKeyRegisters_withKey {act : OneOrThree RoundKeySet → State → State} {s t : State}
    (h : SameButKeyRegisters s t) (hact : ∀ sets, SameButKeyRegisters (act sets s) (act sets t)) :
    SameButKeyRegisters (withKey act s) (withKey act t) := by
  obtain ⟨-, -, -, hstore, -, -, -⟩ := id h
  cases hs : s.store with
  | none =>
    rw [withKey_of_none _ hs, withKey_of_none _ (hstore.trans hs)]
    exact sameButKeyRegisters_raise _ h
  | some sets =>
    rw [withKey_of_some _ hs, withKey_of_some _ (hstore.trans hs)]
    exact hact sets

/-- LDKEY alone reads the key registers. -/
theorem sameButKeyRegisters_effect {i : Instr} {s t : State} (hi : ∀ kw, i ≠ .ldkey kw)
    (h : SameButKeyRegisters s t) : SameButKeyRegisters (effect i s) (effect i t) := by
  have hgate {act : OneOrThree RoundKeySet → State → State}
      (hact : ∀ sets, SameButKeyRegisters (act sets s) (act sets t)) :
      SameButKeyRegisters (unlessFailStop (withKey act) s) (unlessFailStop (withKey act) t) :=
    sameButKeyRegisters_unlessFailStop h (sameButKeyRegisters_withKey h hact)
  obtain ⟨k0, k1, k2, rfl⟩ := sameButKeyRegisters_iff.mp h
  cases i with
  | ldkey kw => exact absurd rfl (hi kw)
  | nop => exact h
  | clrkey => exact sameButKeyRegisters_unlessFailStop h (sameButKeyRegisters_refl _)
  | ecbdec | ecbenc | cbcdec | cbcenc => exact hgate fun _ => sameButKeyRegisters_refl _
  | clrerr | srst => exact sameButKeyRegisters_refl _

/-! ## The relation over accesses and runs -/

theorem loadsKey_of_decode_ldkey {v : Word} {kw : Nat} (hd : decode v = .ok (.ldkey kw)) :
    loadsKey (.write 0 v) = true := by
  obtain ⟨hwf, rfl⟩ := wf_and_encode_of_decode hd
  have hkw : kw < 16 := by simpa [Instr.wf] using hwf
  have hall : ∀ k : Fin 16, loadsKey (.write 0 (encode (.ldkey k.val))) = true := by decide
  exact hall ⟨kw, hkw⟩

theorem hostRead_of_sameButKeyRegisters {s t : State} (n : Nat) (h : SameButKeyRegisters s t) :
    (hostRead n t).1 = (hostRead n s).1 ∧ SameButKeyRegisters (hostRead n s).2 (hostRead n t).2 := by
  obtain ⟨hdin, hdout, hiv, hstore, herr, -, -⟩ := id h
  refine ⟨keysCannotBeRead s t hdin hdout hiv herr (by rw [nsets, nsets, hstore]) n, ?_⟩
  obtain rfl | rfl | rfl | rfl | hn :
      n = 1 ∨ n = 5 ∨ n = 6 ∨ n = 7 ∨ (n = 0 ∨ n = 2 ∨ n = 3 ∨ n = 4 ∨ 8 ≤ n) := by omega
  iterate 4 exact h
  · rw [hostRead_of_unreadable hn, hostRead_of_unreadable hn]
    exact sameButKeyRegisters_raise .illreg h

theorem hostWrite_of_sameButKeyRegisters {n : Nat} {v : Word} {s t : State}
    (ha : loadsKey (.write n v) = false) (h : SameButKeyRegisters s t) :
    ∃ s' t', hostWrite n v s = .next s' ∧ hostWrite n v t = .next t' ∧ SameButKeyRegisters s' t' := by
  obtain ⟨k0, k1, k2, ht⟩ := sameButKeyRegisters_iff.mp h
  by_cases hs : s.err = .noError
  · have hts : t.err = .noError := by rw [ht]; exact hs
    obtain rfl | rfl | rfl | rfl | rfl | rfl | hn :
        n = 0 ∨ n = 2 ∨ n = 3 ∨ n = 4 ∨ n = 5 ∨ n = 7 ∨ (n = 1 ∨ n = 6 ∨ 8 ≤ n) := by omega
    · cases hd : decode v with
      | error e =>
        exact ⟨_, _, hostWrite_of_illegal_word hs ⟨e, hd⟩, hostWrite_of_illegal_word hts ⟨e, hd⟩,
          by rw [ht]; exact sameButKeyRegisters_refl _⟩
      | ok i =>
        have hi (kw : Nat) : i ≠ .ldkey kw := by
          rintro rfl
          simp [loadsKey_of_decode_ldkey hd] at ha
        exact ⟨_, _, perform_command hs hd, perform_command hts hd, sameButKeyRegisters_effect hi h⟩
    · exact ⟨_, _, hostWrite_key0 v hs, hostWrite_key0 v hts, h⟩
    · exact ⟨_, _, hostWrite_key1 v hs, hostWrite_key1 v hts, h⟩
    · exact ⟨_, _, hostWrite_key2 v hs, hostWrite_key2 v hts, h⟩
    · exact ⟨_, _, hostWrite_din v hs, hostWrite_din v hts, by rw [ht]; exact sameButKeyRegisters_refl _⟩
    · exact ⟨_, _, hostWrite_iv v hs, hostWrite_iv v hts, by rw [ht]; exact sameButKeyRegisters_refl _⟩
    · exact ⟨_, _, hostWrite_of_unwritable hn v s, hostWrite_of_unwritable hn v t,
        sameButKeyRegisters_raise _ h⟩
  · have hts : t.err ≠ .noError := by rw [ht]; exact hs
    rw [hostWrite_of_failStop n v hs, hostWrite_of_failStop n v hts]
    split_ifs
    · exact ⟨_, _, rfl, rfl, by rw [ht]; exact sameButKeyRegisters_refl _⟩
    · exact ⟨_, _, exec_eq _ _, exec_eq _ _, sameButKeyRegisters_effect nofun h⟩
    · exact ⟨_, _, rfl, rfl, h⟩

theorem perform_of_sameButKeyRegisters {a : HostAccess} {s t : State} (ha : loadsKey a = false)
    (h : SameButKeyRegisters s t) :
    ∃ s' t', perform a s = .next s' ∧ perform a t = .next t' ∧ SameButKeyRegisters s' t' := by
  cases a with
  | read n =>
    obtain ⟨hval, hst⟩ := hostRead_of_sameButKeyRegisters n h
    refine ⟨_, _, rfl, rfl, ?_⟩
    rw [hval]
    obtain ⟨k0, k1, k2, ht⟩ := sameButKeyRegisters_iff.mp hst
    rw [ht]
    exact sameButKeyRegisters_refl _
  | write n v => exact hostWrite_of_sameButKeyRegisters ha h
  | reset =>
    obtain ⟨k0, k1, k2, rfl⟩ := sameButKeyRegisters_iff.mp h
    exact ⟨_, _, rfl, rfl, sameButKeyRegisters_refl _⟩

theorem performAll_of_sameButKeyRegisters {as : List HostAccess} {s t : State}
    (has : ∀ a ∈ as, loadsKey a = false) (h : SameButKeyRegisters s t) :
    ∃ s' t', performAll as s = .next s' ∧ performAll as t = .next t' ∧ SameButKeyRegisters s' t' := by
  induction as generalizing s t with
  | nil => exact ⟨s, t, rfl, rfl, h⟩
  | cons a as ih =>
    obtain ⟨ha, hrest⟩ := List.forall_mem_cons.mp has
    obtain ⟨u, w, hu, hw, huw⟩ := perform_of_sameButKeyRegisters ha h
    rw [performAll_cons a as hu, performAll_cons a as hw]
    exact ih hrest huw

end Sys2Proof.Machine

open Sys2Proof.Machine

/-- Settles O50: the relation holds of every run without LDKEY, and it includes the values returned. -/
theorem keyRegistersUnseenUntilLdkey : Obligations.KeyRegistersUnseenUntilLdkey := by
  intro as s t s' t' has h hs ht
  obtain ⟨u, w, hu, hw, huw⟩ := performAll_of_sameButKeyRegisters has h
  obtain rfl : u = s' := Host.Outcome.next.inj (hu.symm.trans hs)
  obtain rfl : w = t' := Host.Outcome.next.inj (hw.symm.trans ht)
  obtain ⟨-, -, -, -, -, -, hret⟩ := id huw
  exact ⟨huw, hret⟩
end

section
/-! The key schedule (R67, R68): each subkey in closed form, and as one permutation of the key word, so that
what a schedule depends on is what its sixteen tables read. -/

namespace Sys2Proof.Machine

/-! ## The closed form (R67 (b), (c)) -/

theorem rotateLeft_full (x : KeyHalf) : x.rotateLeft 28 = x := by
  refine BitVec.eq_of_getLsbD_eq fun i hi => ?_
  rw [rotateLeft_getLsbD x 28 i (by omega) hi]
  congr 1
  omega

/-- The running total of the rotation schedule up to and with round `n + 1` (R63). -/
def totalRotation (n : Nat) : Nat := (rot.take (n + 1)).sum

theorem totalRotation_le : ∀ n < 16, totalRotation n ≤ 28 := by decide

theorem ks_getElem_closed (k : Word) (n : Nat) (h : n < 16) :
    (ks k)[n] = permute 48 ((keyHalfC k).rotateLeft (totalRotation n) ++
      (keyHalfD k).rotateLeft (totalRotation n)) pc2 := by
  have hclosed := subkeys_getElem rot (keyHalfC k) (keyHalfD k) n 0 h (by decide)
    (by rw [subkeys_length]; exact h)
  simp only [rotateLeft_zero, Nat.zero_add] at hclosed
  rw [ks_getElem k n h, hclosed]
  rfl

/-! ## Halves that rotation leaves alone (R67 (e)) -/

theorem rotateLeft_of_constant {x : KeyHalf} (hx : x = 0 ∨ x = 0xFFFFFFF) {r : Nat} (hr : r ≤ 28) :
    x.rotateLeft r = x := by
  have hones : ∀ i < 28, (0xFFFFFFF : KeyHalf).getLsbD i = true := by decide
  refine BitVec.eq_of_getLsbD_eq fun i hi => ?_
  rw [rotateLeft_getLsbD x r i hr hi]
  obtain rfl | rfl := hx
  · simp
  · rw [hones _ (Nat.mod_lt _ (by omega)), hones i hi]

/-! ## Each subkey as one permutation of the key word -/

/-- The rotation of both halves by `r` as a table over the 56 bits of PC-1's output (R64). -/
def rotationTable (r : Nat) : List Nat :=
  (List.range 56).map fun i => if i < 28 then (i + r) % 28 + 1 else (i - 28 + r) % 28 + 29

theorem length_rotationTable (r : Nat) : (rotationTable r).length = 56 := by
  rw [rotationTable, List.length_map, List.length_range]

theorem mem_rotationTable_bounds {r j : Nat} (h : j ∈ rotationTable r) : 1 ≤ j ∧ j ≤ 56 := by
  obtain ⟨i, -, rfl⟩ := List.mem_map.mp h
  split <;> omega

theorem rotateLeft_append_rotateLeft (c d : KeyHalf) {r : Nat} (hr : r ≤ 28) :
    c.rotateLeft r ++ d.rotateLeft r = permute 56 (c ++ d) (rotationTable r) := by
  refine BitVec.eq_of_getLsbD_eq fun i hi => ?_
  rw [permute_getLsbD 56 _ _ (length_rotationTable r) i hi, dbit, BitVec.getLsbD_append, BitVec.getLsbD_append]
  simp only [rotationTable, List.getElem_map, List.getElem_range]
  by_cases hlow : i < 28
  · have hidx : ¬ 56 - 1 - i < 28 := by omega
    have hbit : 28 + 28 - ((56 - 1 - i - 28 + r) % 28 + 29) = (i + (28 - r)) % 28 := by omega
    rw [if_pos hlow, if_neg hidx, hbit, if_pos (Nat.mod_lt _ (by omega)), rotateLeft_getLsbD d r i hr hlow]
  · have hidx : 56 - 1 - i < 28 := by omega
    have hbit : 28 + 28 - ((56 - 1 - i + r) % 28 + 1) = (i - 28 + (28 - r)) % 28 + 28 := by omega
    rw [if_neg hlow, if_pos hidx, hbit, if_neg (by omega), Nat.add_sub_cancel,
      rotateLeft_getLsbD c r (i - 28) hr (by omega)]

theorem append_keyHalves (k : Word) : keyHalfC k ++ keyHalfD k = permute 56 k pc1 := by
  refine BitVec.eq_of_getLsbD_eq fun i hi => ?_
  rw [BitVec.getLsbD_append, keyHalfC, keyHalfD, BitVec.getLsbD_extractLsb', BitVec.getLsbD_extractLsb']
  by_cases hlow : i < 28
  · simp [hlow]
  · have hlt : i - 28 < 28 := by omega
    simp [hlow, hlt, Nat.add_sub_cancel' (Nat.le_of_not_lt hlow)]

/-- PC-1, the rotation and PC-2 of round `n + 1` as one table over the key word. -/
def subkeyTable (n : Nat) : List Nat := readThrough (readThrough pc1 (rotationTable (totalRotation n))) pc2

theorem length_subkeyTable (n : Nat) : (subkeyTable n).length = 48 := by
  rw [subkeyTable, readThrough, List.length_map, length_pc2]

theorem mem_pc2_bounds : ∀ j ∈ pc2, 1 ≤ j ∧ j ≤ 56 := by decide

theorem ks_getElem_eq_permute (k : Word) (n : Nat) (h : n < 16) : (ks k)[n] = permute 48 k (subkeyTable n) := by
  have hlen : (readThrough pc1 (rotationTable (totalRotation n))).length = 56 := by
    rw [readThrough, List.length_map, length_rotationTable]
  rw [ks_getElem_closed k n h, rotateLeft_append_rotateLeft _ _ (totalRotation_le n h), append_keyHalves,
    permute_permute 56 56 k length_pc1 (length_rotationTable _) fun _ => mem_rotationTable_bounds]
  exact permute_permute 56 48 k hlen length_pc2 mem_pc2_bounds

/-- The sixteen tables read no parity bit (R61, R68). -/
theorem mem_subkeyTable_bounds : ∀ n < 16, ∀ j ∈ subkeyTable n, 1 ≤ j ∧ j ≤ 64 ∧ j % 8 ≠ 0 := by decide +kernel

/-- Every bit of the key word but the parity bits is read by one of the tables. -/
theorem exists_mem_subkeyTable : ∀ j < 65, 1 ≤ j → j % 8 ≠ 0 → ∃ n < 16, j ∈ subkeyTable n := by decide +kernel

/-- A permuted value is known exactly when the bits its table names are. -/
theorem permute_eq_permute_iff {n m : Nat} {v w : BitVec n} {t : List Nat} (hm : t.length = m) :
    permute m v t = permute m w t ↔ ∀ j ∈ t, dbit v j = dbit w j := by
  constructor
  · intro h j hj
    obtain ⟨p, hp, rfl⟩ := List.mem_iff_getElem.mp hj
    have hv := dbit_permute m v t hm (p + 1) (by omega) (by omega)
    have hw := dbit_permute m w t hm (p + 1) (by omega) (by omega)
    exact hv.symm.trans ((congrArg (dbit · (p + 1)) h).trans hw)
  · intro h
    refine BitVec.eq_of_getLsbD_eq fun i hi => ?_
    rw [permute_getLsbD m v t hm i hi, permute_getLsbD m w t hm i hi]
    exact h _ (List.getElem_mem _)

theorem ks_eq_ks_iff (k k' : Word) :
    ks k = ks k' ↔ ∀ n < 16, ∀ j ∈ subkeyTable n, dbit k j = dbit k' j := by
  rw [Vector.ext_iff]
  refine forall₂_congr fun n h => ?_
  rw [ks_getElem_eq_permute k n h, ks_getElem_eq_permute k' n h, permute_eq_permute_iff (length_subkeyTable n)]

/-- The mask has the bits that are no parity bits (R67 (a)). -/
theorem xor_and_parityMask_eq_zero_iff (k k' : Word) :
    (k ^^^ k') &&& 0xFEFEFEFEFEFEFEFE = 0 ↔ ∀ j, 1 ≤ j → j ≤ 64 → j % 8 ≠ 0 → dbit k j = dbit k' j := by
  have hmask : ∀ i < 64, (0xFEFEFEFEFEFEFEFE : Word).getLsbD i = decide (i % 8 ≠ 0) := by decide +kernel
  constructor
  · intro h j h1 h64 h8
    have hj := congrArg (BitVec.getLsbD · (64 - j)) h
    have h8' : (64 - j) % 8 ≠ 0 := by omega
    simp only [BitVec.getLsbD_and, hmask (64 - j) (by omega), decide_eq_true h8'] at hj
    simpa [dbit] using hj
  · intro h
    refine BitVec.eq_of_getLsbD_eq fun i hi => ?_
    rw [BitVec.getLsbD_and, hmask i hi]
    by_cases h8 : i % 8 = 0
    · simp [h8]
    · have hj := h (64 - i) (by omega) (by omega) (by omega)
      rw [dbit, dbit, Nat.sub_sub_self (Nat.le_of_lt hi)] at hj
      simp [hj]

theorem ks_eq_ks_iff_mask (k k' : Word) : ks k = ks k' ↔ (k ^^^ k') &&& 0xFEFEFEFEFEFEFEFE = 0 := by
  rw [ks_eq_ks_iff, xor_and_parityMask_eq_zero_iff]
  constructor
  · intro h j h1 h64 h8
    obtain ⟨n, hn, hj⟩ := exists_mem_subkeyTable j (by omega) h1 h8
    exact h n hn j hj
  · intro h n hn j hj
    obtain ⟨h1, h64, h8⟩ := mem_subkeyTable_bounds n hn j hj
    exact h j h1 h64 h8

/-- A permutation of the complement is the complement (R67 (d)). -/
theorem ks_not_getElem (k : Word) (n : Nat) (h : n < 16) : (ks (~~~k))[n] = ~~~(ks k)[n] := by
  rw [ks_getElem_eq_permute _ n h, ks_getElem_eq_permute _ n h]
  refine permute_not k _ (length_subkeyTable n) fun j hj => ?_
  obtain ⟨h1, h64, -⟩ := mem_subkeyTable_bounds n h j hj
  exact ⟨h1, h64⟩

end Sys2Proof.Machine

open Sys2Proof Sys2Proof.Machine

/-- Settles O31: the closed form at the running total, which for the last round is the full width. -/
theorem subkeyInClosedForm : Obligations.SubkeyInClosedForm := by
  refine ⟨ks_getElem_closed, fun k => ?_⟩
  have htotal : totalRotation 15 = 28 := by decide
  rw [ks_getElem_closed k 15 (by omega), htotal, rotateLeft_full, rotateLeft_full]

/-- Settles O32: the sixteen tables together read every bit of the key word but the parity bits. -/
theorem scheduleIgnoresParityOnly : Obligations.ScheduleIgnoresParityOnly := ks_eq_ks_iff_mask

/-- Settles O33: each subkey is a permutation of the key word. -/
theorem scheduleOfComplement : Obligations.ScheduleOfComplement := ks_not_getElem

/-- Settles O34: constant halves are their own rotations, so every round selects from the same halves. -/
theorem keysWithEqualSubkeys : Obligations.KeysWithEqualSubkeys := by
  refine ⟨fun k hc hd m n hm hn => ?_, ?_⟩
  · rw [ks_getElem_closed k m hm, ks_getElem_closed k n hn,
      rotateLeft_of_constant hc (totalRotation_le m hm), rotateLeft_of_constant hd (totalRotation_le m hm),
      rotateLeft_of_constant hc (totalRotation_le n hn), rotateLeft_of_constant hd (totalRotation_le n hn)]
  · rintro k (rfl | rfl | rfl | rfl) <;> decide +kernel
end

section
/-! The block transform (R86): its inverse, the complement, equal subkeys; the S-box digit strings (R77) and the
source's vectors. -/

namespace Sys2Proof.Machine

theorem btCore_bijective (q : List RoundKey) : Function.Bijective fun x => btCore x q := by
  rw [Function.bijective_iff_has_inverse]
  refine ⟨fun y => btCore y q.reverse, fun x => btCore_btCore_reverse x q, fun y => ?_⟩
  have h := btCore_btCore_reverse y q.reverse
  rwa [List.reverse_reverse] at h

/-! ## The complement (R86 (c)) -/

theorem mem_expansion_bounds : ∀ j ∈ expansion, 1 ≤ j ∧ j ≤ 32 := by decide

/-- The complements of the half and of the subkey cancel before the S-boxes. -/
theorem feistel_not (r : Half) (kn : RoundKey) : feistel (~~~r) (~~~kn) = feistel r kn := by
  rw [feistel, permute_not r expansion length_expansion mem_expansion_bounds, ← BitVec.not_xor_left,
    ← BitVec.not_xor_right, BitVec.not_not, feistel]

theorem feistelRound_not (lr : Half × Half) (kn : RoundKey) :
    feistelRound (lr.map (~~~·) (~~~·)) (~~~kn) = (feistelRound lr kn).map (~~~·) (~~~·) := by
  simp only [feistelRound, Prod.map, feistel_not, BitVec.not_xor_left]

theorem foldl_feistelRound_not (q : List RoundKey) (lr : Half × Half) :
    (q.map (~~~·)).foldl feistelRound (lr.map (~~~·) (~~~·)) =
      (q.foldl feistelRound lr).map (~~~·) (~~~·) := by
  induction q generalizing lr with
  | nil => rfl
  | cons k q ih => rw [List.map_cons, List.foldl_cons, feistelRound_not, ih, List.foldl_cons]

/-- A half of the complement is the complement of the half. -/
theorem extractLsb'_not (y : Word) {start : Nat} (h : start ≤ 32) :
    (~~~y).extractLsb' start 32 = ~~~(y.extractLsb' start 32) := by
  refine BitVec.eq_of_getLsbD_eq fun i hi => ?_
  have hlt : start + i < 64 := by omega
  rw [BitVec.getLsbD_extractLsb', BitVec.getLsbD_not, BitVec.getLsbD_not, BitVec.getLsbD_extractLsb']
  simp [hi, hlt]

theorem splitIP_not (x : Word) : splitIP (~~~x) = (splitIP x).map (~~~·) (~~~·) := by
  rw [splitIP, permute_not x ip length_ip mem_ip_bounds, extractLsb'_not _ (by omega),
    extractLsb'_not _ (by omega)]
  rfl

theorem joinFP_not (lr : Half × Half) : joinFP (lr.map (~~~·) (~~~·)) = ~~~joinFP lr := by
  rw [joinFP, Prod.map, ← not_append, permute_not _ fp length_fp mem_fp_bounds, joinFP]

theorem btCore_not (x : Word) (q : List RoundKey) : btCore (~~~x) (q.map (~~~·)) = ~~~btCore x q := by
  rw [btCore, splitIP_not, foldl_feistelRound_not, joinFP_not, btCore]

theorem ks_not_toList (k : Word) : (ks (~~~k)).toList = (ks k).toList.map (~~~·) := by
  refine List.ext_getElem (by simp) fun n hn hn' => ?_
  have h : n < 16 := by simpa using hn
  simpa using ks_not_getElem k n h

/-! ## Equal subkeys (R86 (d)) -/

theorem toList_reverse_of_equal {rk : RoundKeySet}
    (h : ∀ (m n : Nat) (hm : m < 16) (hn : n < 16), rk[m] = rk[n]) : rk.toList.reverse = rk.toList := by
  refine List.ext_getElem (List.length_reverse) fun i hi hi' => ?_
  have hlt : i < 16 := by simpa using hi'
  rw [List.getElem_reverse]
  simpa using h (16 - 1 - i) i (by omega) hlt

end Sys2Proof.Machine

open Sys2Proof Sys2Proof.Machine

/-- Settles O39: the reversed list undoes the list, and as every list is a reversed one, on either side. -/
theorem blockTransformInverse : Obligations.BlockTransformInverse :=
  ⟨btCore_btCore_reverse, fun x rk => ⟨bt_decrypt_bt_encrypt x rk, bt_encrypt_bt_decrypt x rk⟩,
    btCore_bijective⟩

/-- Settles O40: every stage of the transform carries the complement along, and the round function does not
see it. -/
theorem transformOfComplement : Obligations.TransformOfComplement := by
  intro x k dir
  cases dir with
  | encrypt => rw [bt_encrypt, ks_not_toList, btCore_not, bt_encrypt]
  | decrypt => rw [bt_decrypt, ks_not_toList, ← List.map_reverse, btCore_not, bt_decrypt]

/-- Settles O41: the list of equal subkeys is its own reverse. -/
theorem equalSubkeysSelfInverse : Obligations.EqualSubkeysSelfInverse := by
  intro x rk h
  have hdir (y : Word) : bt y rk .encrypt = bt y rk .decrypt := by
    rw [bt_encrypt, bt_decrypt, toList_reverse_of_equal h]
  exact ⟨hdir x, by rw [hdir (bt x rk .encrypt), bt_decrypt_bt_encrypt]⟩

/-- Settles O35: each box at each of its 64 groups. -/
theorem sboxesMatchDirectForm : Obligations.SboxesMatchDirectForm := by
  unfold Obligations.SboxesMatchDirectForm
  decide +kernel

/-- Settles O36: the model computes each vector. -/
theorem sourceVectors : Obligations.SourceVectors := by
  unfold Obligations.SourceVectors
  decide +kernel
end

section
/-! Degenerate keys (R97): two neighbouring stages under one schedule cancel, and a schedule does not see the
parity bits of its key word (R68). -/

namespace Sys2Proof.Machine

theorem cascade_three_of_last_equal (x : Word) (a b : RoundKeySet) (dir : Dir) :
    cascade x (.three a b b) dir = cascade x (.one a) dir := by
  cases dir with
  | encrypt => rw [cascade_three_encrypt, bt_encrypt_bt_decrypt, cascade_one]
  | decrypt => rw [cascade_three_decrypt, bt_encrypt_bt_decrypt, cascade_one]

theorem cascade_three_of_first_equal (x : Word) (a c : RoundKeySet) (dir : Dir) :
    cascade x (.three a a c) dir = cascade x (.one c) dir := by
  cases dir with
  | encrypt => rw [cascade_three_encrypt, bt_decrypt_bt_encrypt, cascade_one]
  | decrypt => rw [cascade_three_decrypt, bt_decrypt_bt_encrypt, cascade_one]

/-- Another parity makes another key word and the same schedule. -/
theorem ks_xor_parity {k m : Word} (hm : m &&& 0xFEFEFEFEFEFEFEFE = 0) : ks (k ^^^ m) = ks k := by
  rw [ks_eq_ks_iff_mask, xor_xor_cancel_comm, hm]

end Sys2Proof.Machine

open Sys2Proof Sys2Proof.Machine

/-- Settles O45: two stages under one schedule cancel, also where the schedule is that of two key words. -/
theorem degenerateKeysSameFunction : Obligations.DegenerateKeysSameFunction := by
  refine ⟨fun x k0 k1 dir => cascade_three_of_last_equal x _ _ dir,
    fun x k0 k2 dir => cascade_three_of_first_equal x _ _ dir, fun x k0 k2 m dir hm hmask hk2 => ?_⟩
  have hne : k0 ^^^ m ≠ k0 := mt xor_left_eq_self_iff.mp hm
  have hguard : keyGuard 3 k0 (k0 ^^^ m) k2 = .three k0 (k0 ^^^ m) k2 := by
    rw [keyGuard_three_words, if_neg hk2.symm, if_neg hne]
  refine ⟨hguard, ?_⟩
  rw [hguard, keyGuard_one_word, loadSets, OneOrThree.map, ks_xor_parity hmask]
  exact cascade_three_of_first_equal x _ _ dir
end

section
/-! A stream of steps (R104): what one block writes to DOUT and to IV under each of the four processing
commands, and by induction over the blocks what the whole stream reads. -/

namespace Sys2Proof.Machine

/-- The command of `blk.OP` (R55). -/
def BlockCommand.instr : BlockCommand → Instr
  | .ecbenc => .ecbenc
  | .ecbdec => .ecbdec
  | .cbcenc => .cbcenc
  | .cbcdec => .cbcdec

/-- What a command makes of the block `x` when IV holds `iv` (R101 to R103). -/
def BlockCommand.output (sets : OneOrThree RoundKeySet) : BlockCommand → Word → Word → Word
  | .ecbenc, _, x => cascade x sets .encrypt
  | .ecbdec, _, x => cascade x sets .decrypt
  | .cbcenc, iv, x => cascade (x ^^^ iv) sets .encrypt
  | .cbcdec, iv, x => cascade x sets .decrypt ^^^ iv

/-- What the command leaves in IV (R101 to R103). -/
def BlockCommand.nextIv (sets : OneOrThree RoundKeySet) : BlockCommand → Word → Word → Word
  | .ecbenc, iv, _ => iv
  | .ecbdec, iv, _ => iv
  | .cbcenc, iv, x => cascade (x ^^^ iv) sets .encrypt
  | .cbcdec, _, x => x

/-- The outputs of a stream of blocks that starts with `iv` in IV. -/
def BlockCommand.sequence (sets : OneOrThree RoundKeySet) (c : BlockCommand) : Word → List Word → List Word
  | _, [] => []
  | iv, x :: xs => c.output sets iv x :: c.sequence sets (c.nextIv sets iv x) xs

/-! ## The four sequences are those of the mode driver -/

theorem sequence_ecbenc (sets : OneOrThree RoundKeySet) (iv : Word) (xs : List Word) :
    BlockCommand.ecbenc.sequence sets iv xs = ecbSeq sets .encrypt xs := by
  induction xs with
  | nil => rfl
  | cons x xs ih => exact congrArg _ ih

theorem sequence_ecbdec (sets : OneOrThree RoundKeySet) (iv : Word) (xs : List Word) :
    BlockCommand.ecbdec.sequence sets iv xs = ecbSeq sets .decrypt xs := by
  induction xs with
  | nil => rfl
  | cons x xs ih => exact congrArg _ ih

theorem sequence_cbcenc (sets : OneOrThree RoundKeySet) (iv : Word) (xs : List Word) :
    BlockCommand.cbcenc.sequence sets iv xs = cbcEncSeq sets iv xs := by
  induction xs generalizing iv with
  | nil => rfl
  | cons x xs ih => exact congrArg _ (ih _)

theorem sequence_cbcdec (sets : OneOrThree RoundKeySet) (iv : Word) (xs : List Word) :
    BlockCommand.cbcdec.sequence sets iv xs = cbcDecSeq sets iv xs := by
  induction xs generalizing iv with
  | nil => rfl
  | cons x xs ih => exact congrArg _ (ih _)

/-! ## Where the running value ends -/

theorem foldl_nextIv_ecb {c : BlockCommand} (hc : c = .ecbenc ∨ c = .ecbdec) (sets : OneOrThree RoundKeySet)
    (iv : Word) (xs : List Word) : xs.foldl (c.nextIv sets) iv = iv := by
  induction xs with
  | nil => rfl
  | cons x xs ih => obtain rfl | rfl := hc <;> exact ih

theorem foldl_nextIv_cbcenc (sets : OneOrThree RoundKeySet) (iv : Word) (xs : List Word) :
    xs.foldl (BlockCommand.cbcenc.nextIv sets) iv = (cbcEncSeq sets iv xs).getLastD iv := by
  induction xs generalizing iv with
  | nil => rfl
  | cons x xs ih => rw [cbcEncSeq, List.getLastD_cons]; exact ih _

theorem foldl_nextIv_cbcdec (sets : OneOrThree RoundKeySet) (iv : Word) (xs : List Word) :
    xs.foldl (BlockCommand.cbcdec.nextIv sets) iv = xs.getLastD iv := by
  induction xs generalizing iv with
  | nil => rfl
  | cons x xs ih => rw [List.getLastD_cons]; exact ih _

/-! ## The stream -/

theorem decode_blockCommand (c : BlockCommand) : decode (encode c.instr) = .ok c.instr := by
  cases c <;> rfl

/-- With a key loaded a processing command writes DOUT and IV, and reads them off DIN, IV and the store. -/
theorem effect_blockCommand (c : BlockCommand) {s : State} {sets : OneOrThree RoundKeySet}
    (he : s.err = .noError) (hs : s.store = some sets) :
    effect c.instr s = (s.setDout (c.output sets s.iv s.din)).setIv (c.nextIv sets s.iv s.din) := by
  cases c with
  | ecbenc => exact effect_ecbenc he hs
  | ecbdec => exact effect_ecbdec he hs
  | cbcenc => exact effect_cbcenc he hs
  | cbcdec => exact effect_cbcdec he hs

/-- The state that the three accesses of one block leave. -/
def blockDone (sets : OneOrThree RoundKeySet) (c : BlockCommand) (x : Word) (s : State) : State :=
  (((s.setDin x).setDout (c.output sets s.iv x)).setIv (c.nextIv sets s.iv x)).addReturned (c.output sets s.iv x)

theorem performAll_blockCommand (c : BlockCommand) (x : Word) {s : State} {sets : OneOrThree RoundKeySet}
    (he : s.err = .noError) (hs : s.store = some sets) :
    performAll (blockAccesses (encode c.instr) x) s = .next (blockDone sets c x s) :=
  performAll_block he (decode_blockCommand c) (effect_blockCommand c (s := s.setDin x) he hs)

theorem performAll_stream (c : BlockCommand) (xs : List Word) {s : State} {sets : OneOrThree RoundKeySet}
    (he : s.err = .noError) (hs : s.store = some sets) :
    ∃ t, performAll (streamAccesses (encode c.instr) xs) s = .next t ∧
      t.returned = s.returned ++ c.sequence sets s.iv xs ∧ t.iv = xs.foldl (c.nextIv sets) s.iv ∧
      t.store = s.store ∧ t.err = .noError := by
  induction xs generalizing s with
  | nil => exact ⟨s, rfl, (List.append_nil _).symm, rfl, rfl, he⟩
  | cons x xs ih =>
    obtain ⟨t, ht, hret, hiv, hstore, herr⟩ := ih (s := blockDone sets c x s) he hs
    refine ⟨t, ?_, ?_, hiv, hstore, herr⟩
    · rw [streamAccesses_cons, performAll_append _ _ (performAll_blockCommand c x he hs), ht]
    · simp [hret, blockDone, BlockCommand.sequence]

theorem run_stream (c : BlockCommand) {xs : List Word} {rest : List HostAccess} {s : State}
    {sets : OneOrThree RoundKeySet} (he : s.err = .noError) (hs : s.store = some sets)
    (hp : s.pending = streamAccesses (encode c.instr) xs ++ rest) :
    ∃ t, Host.Core.run Sys2Proof.core (3 * xs.length) s = .next t ∧
      t.returned = s.returned ++ c.sequence sets s.iv xs ∧ t.iv = xs.foldl (c.nextIv sets) s.iv ∧
      t.store = s.store ∧ t.err = .noError ∧ t.pending = rest := by
  obtain ⟨t, ht, hret, hiv, hstore, herr⟩ := performAll_stream c xs he hs
  have hrun := run_pending hp ht
  rw [streamAccesses_length] at hrun
  exact ⟨t.setPending rest, hrun, hret, hiv, hstore, herr, rfl⟩

/-- The write of IV is one step more, and the stream starts from the value written. -/
theorem run_iv_stream (c : BlockCommand) {iv : Word} {xs : List Word} {rest : List HostAccess} {s : State}
    {sets : OneOrThree RoundKeySet} (he : s.err = .noError) (hs : s.store = some sets)
    (hp : s.pending = .write 7 iv :: (streamAccesses (encode c.instr) xs ++ rest)) :
    ∃ t, Host.Core.run Sys2Proof.core (3 * xs.length + 1) s = .next t ∧
      t.returned = s.returned ++ c.sequence sets iv xs ∧ t.iv = xs.foldl (c.nextIv sets) iv ∧
      t.store = s.store ∧ t.err = .noError ∧ t.pending = rest := by
  have hstep : step s = .next ((s.setPending (streamAccesses (encode c.instr) xs ++ rest)).setIv iv) := by
    rw [step_of_pending_cons hp]
    exact perform_write_iv iv he
  rw [run_succ_of_step _ hstep]
  exact run_stream c (by exact he) (by exact hs) rfl

end Sys2Proof.Machine

open Sys2Proof Sys2Proof.Machine

/-- Settles O48: the four streams of one induction, the CBC ones after the step that writes IV. -/
theorem streamsComputeTheSequences : Obligations.StreamsComputeTheSequences := by
  refine fun s sets xs iv rest he hs => ⟨fun hp => ?_, fun hp => ?_, fun hp => ?_, fun hp => ?_⟩
  · have h := run_stream .ecbenc he hs hp
    rwa [sequence_ecbenc, foldl_nextIv_ecb (.inl rfl)] at h
  · have h := run_stream .ecbdec he hs hp
    rwa [sequence_ecbdec, foldl_nextIv_ecb (.inr rfl)] at h
  · have h := run_iv_stream .cbcenc he hs hp
    rwa [sequence_cbcenc, foldl_nextIv_cbcenc] at h
  · have h := run_iv_stream .cbcdec he hs hp
    rwa [sequence_cbcdec, foldl_nextIv_cbcdec] at h
end

section
/-! The host wrapper (R130 to R140): padding, the calls that fail, loading a key, and the round trip of a
message, in which each call is one stream of blocks. -/

namespace Sys2Proof.Machine

/-! ## Padding (R132, R137) -/

theorem pad_length (msg : List Byte) : (pad msg).length = msg.length + (8 - msg.length % 8) := by
  rw [pad, List.length_append, List.length_replicate]

theorem pad_length_mod (msg : List Byte) : (pad msg).length % 8 = 0 := by
  rw [pad_length]
  omega

/-- The pad bytes hold their own number, which `Unpad` reads off the last one. -/
theorem unpad_append_replicate (msg : List Byte) {n : Nat} (h1 : 1 ≤ n) (h8 : n ≤ 8) :
    unpad (msg ++ List.replicate n (BitVec.ofNat 8 n)) = msg := by
  have hlast : (msg ++ List.replicate n (BitVec.ofNat 8 n)).getLast? = some (BitVec.ofNat 8 n) := by
    rw [List.getLast?_append, List.getLast?_replicate, if_neg (by omega)]
    rfl
  have hn : (BitVec.ofNat 8 n).toNat = n := by
    rw [BitVec.toNat_ofNat, Nat.mod_eq_of_lt (by omega)]
  simp only [unpad, hlast, hn, List.length_append, List.length_replicate, Nat.add_sub_cancel, List.take_left]
  split_ifs with hlen
  · exact (List.length_eq_zero_iff.mp (by omega)).symm
  · rfl

theorem unpad_pad (msg : List Byte) : unpad (pad msg) = msg :=
  unpad_append_replicate msg (by omega) (by omega)

/-! ## Blocks and bytes (R33) -/

theorem blocksOf_bytesOf (xs : List Word) : blocksOf xs.length (bytesOf xs) = xs := by
  induction xs with
  | nil => rfl
  | cons x xs ih =>
    have hbytes : bytesOf (x :: xs) = bytes8 x ++ bytesOf xs := rfl
    have htake : (bytes8 x ++ bytesOf xs).take 8 = bytes8 x := List.take_left' (bytes8_length x)
    have hdrop : (bytes8 x ++ bytesOf xs).drop 8 = bytesOf xs := List.drop_left' (bytes8_length x)
    rw [hbytes, List.length_cons, blocksOf, htake, hdrop, be64_bytes8, ih]

theorem bytesOf_blocksOf {n : Nat} {msg : List Byte} (h : msg.length = 8 * n) : bytesOf (blocksOf n msg) = msg := by
  induction n generalizing msg with
  | zero => exact (List.length_eq_zero_iff.mp h).symm
  | succ n ih =>
    have hbytes : bytesOf (blocksOf (n + 1) msg) =
        bytes8 (be64 (msg.take 8)) ++ bytesOf (blocksOf n (msg.drop 8)) := rfl
    rw [hbytes, bytes8_be64 _ (by rw [List.length_take]; omega), ih (by rw [List.length_drop]; omega),
      List.take_append_drop]

/-! ## Calls -/

theorem call_of_error {α : Type} {accesses : Except CallError (List HostAccess)} {e : CallError}
    (h : accesses = .error e) (result : List Word → α) (s : State) :
    call accesses result s = .next (.error e, s) := by
  simp only [call, h]

theorem call_of_ok {α : Type} {accesses : Except CallError (List HostAccess)} {as : List HostAccess}
    {s t : State} {xs : List Word} (h : accesses = .ok as) (ht : performAll as s = .next t)
    (hret : t.returned = s.returned ++ xs) (result : List Word → α) :
    call accesses result s = .next (.ok (result xs), t) := by
  have hreads : readsBetween s t = xs := by rw [readsBetween, hret, List.drop_left]
  simp only [call, h, ht, hreads]

/-! ## Loading a key (R130) -/

theorem performAll_ldkey {kw : Nat} (hk : kw = 1 ∨ kw = 2 ∨ kw = 3) {s : State} (he : s.err = .noError) :
    performAll [.write 0 (encode (.ldkey kw))] s =
      .next (s.setStore (some (loadSets (keyOperand kw s)))) := by
  have hwf : (Instr.ldkey kw).wf = true := decide_eq_true (by omega)
  rw [performAll_cons _ _ (perform_command he (decode_encode hwf)), effect_ldkey_of_legal he hk]
  rfl

/-- What a key length does not use is not written, and the key guard does not read it. -/
theorem performAll_keyWrites_one (key : List Byte) (k1 k2 : Word) {s : State} (he : s.err = .noError) :
    performAll (keyWrites 1 key) s =
      .next ((s.setKey0 (be64 (key.take 8))).setStore
        (some (loadSets (keyGuard 1 (be64 (key.take 8)) k1 k2)))) := by
  refine (performAll_cons (.write 2 _) _ (hostWrite_key0 _ he)).trans ?_
  refine (performAll_ldkey (by omega) (by exact he)).trans ?_
  rw [keyOperand, keyGuard_one_word, keyGuard_one_word]
  rfl

theorem performAll_keyWrites_two (key : List Byte) (k2 : Word) {s : State} (he : s.err = .noError) :
    performAll (keyWrites 2 key) s =
      .next (((s.setKey0 (be64 (key.take 8))).setKey1 (be64 ((key.drop 8).take 8))).setStore
        (some (loadSets (keyGuard 2 (be64 (key.take 8)) (be64 ((key.drop 8).take 8)) k2)))) := by
  refine (performAll_cons (.write 2 _) _ (hostWrite_key0 _ he)).trans ?_
  refine (performAll_cons (.write 3 _) _ (hostWrite_key1 _ (by exact he))).trans ?_
  refine (performAll_ldkey (by omega) (by exact he)).trans ?_
  rw [keyOperand, keyGuard_two_words, keyGuard_two_words]
  rfl

theorem performAll_keyWrites_three (key : List Byte) {s : State} (he : s.err = .noError) :
    performAll (keyWrites 3 key) s =
      .next ((((s.setKey0 (be64 (key.take 8))).setKey1 (be64 ((key.drop 8).take 8))).setKey2
        (be64 ((key.drop 16).take 8))).setStore
        (some (loadSets (keyGuard 3 (be64 (key.take 8)) (be64 ((key.drop 8).take 8))
          (be64 ((key.drop 16).take 8)))))) := by
  refine (performAll_cons (.write 2 _) _ (hostWrite_key0 _ he)).trans ?_
  refine (performAll_cons (.write 3 _) _ (hostWrite_key1 _ (by exact he))).trans ?_
  refine (performAll_cons (.write 4 _) _ (hostWrite_key2 _ (by exact he))).trans ?_
  exact performAll_ldkey (by omega) (by exact he)

theorem makeKey_of_length {key : List Byte} (h : key.length = 8 ∨ key.length = 16 ∨ key.length = 24) :
    makeKey (.bytes key) = .ok (keyWrites (key.length / 8) key) := if_pos h

/-- With a key loaded one of the two predicates holds, never both (R138). -/
theorem isSingle_iff_not_isTriple {s : State} {sets : OneOrThree RoundKeySet} (h : s.store = some sets) :
    isSingle s = true ↔ isTriple s = false := by
  have hne : nsets s ≠ 0 := by rw [nsets_of_store_some h]; exact sets.size_ne_zero
  rw [isSingle_iff, ← Bool.not_eq_true, isTriple_iff]
  have hcases := nsets_cases s
  omega

end Sys2Proof.Machine

open Sys2Proof Sys2Proof.Machine

/-- Settles O51: the pad is one to eight copies of its own length. -/
theorem paddingRoundTrip : Obligations.PaddingRoundTrip := by
  intro msg
  have hlen := pad_length msg
  exact ⟨rfl, by omega, by omega, unpad_pad msg, pad_length_mod msg, by omega, by omega⟩


/-- Settles O53: each guard that fails is an error before any access. -/
theorem failingCallsTouchNothing : Obligations.FailingCallsTouchNothing := by
  refine ⟨fun key s hkey => ?_, fun iv padding s => ⟨rfl, rfl⟩, fun b iv padding s hb => ⟨?_, ?_⟩,
    fun b iv padding s hiv => ⟨fun hb => ?_, fun hb => ?_⟩⟩
  · refine call_of_error ?_ _ s
    cases key with
    | notBytes => rfl
    | bytes b =>
      obtain ⟨h8, h16, h24⟩ := hkey b rfl
      exact if_neg (by omega)
  · exact call_of_error (by simp [encryptAccesses, guardPlaintext, hb]) _ s
  · exact call_of_error (by simp [decryptAccesses, guardCiphertext, hb]) _ s
  · refine call_of_error ?_ _ s
    obtain rfl | hb := hb
    · simp [encryptAccesses, guardPlaintext, hiv]
    · cases padding <;> simp [encryptAccesses, guardPlaintext, hb, hiv]
  · exact call_of_error (by simp [decryptAccesses, guardCiphertext, hb, hiv]) _ s

/-- Settles O54: the writes and the LDKEY of each key length. -/
theorem makeKeyLoadsTheKey : Obligations.MakeKeyLoadsTheKey := by
  intro key s he hlen
  have hmake := makeKey_of_length hlen
  obtain h | h | h := hlen <;> rw [h] at hmake ⊢
  · have hrun := performAll_keyWrites_one key (be64 ((key.drop 8).take 8)) (be64 ((key.drop 16).take 8)) he
    exact ⟨_, call_of_ok hmake hrun (List.append_nil _).symm _, rfl, he, rfl, rfl, rfl,
      isSingle_iff_not_isTriple rfl⟩
  · have hrun := performAll_keyWrites_two key (be64 ((key.drop 16).take 8)) he
    exact ⟨_, call_of_ok hmake hrun (List.append_nil _).symm _, rfl, he, rfl, rfl, rfl,
      isSingle_iff_not_isTriple rfl⟩
  · exact ⟨_, call_of_ok hmake (performAll_keyWrites_three key he) (List.append_nil _).symm _, rfl, he, rfl,
      rfl, rfl, isSingle_iff_not_isTriple rfl⟩
end

section
/-! The round trip of a message through the wrapper (R140): each call is one stream, and the stream of the
decryption undoes the blocks of the encryption's. -/

namespace Sys2Proof.Machine

/-- The command of R135: ECBENC without an IV, CBCENC with one. -/
def encryptCommand : Option Word → BlockCommand
  | none => .ecbenc
  | some _ => .cbcenc

/-- The command of R136: ECBDEC without an IV, CBCDEC with one. -/
def decryptCommand : Option Word → BlockCommand
  | none => .ecbdec
  | some _ => .cbcdec

theorem encryptWord_eq (v : Option Word) : encryptWord v = encode (encryptCommand v).instr := by
  cases v <;> rfl

theorem decryptWord_eq (v : Option Word) : decryptWord v = encode (decryptCommand v).instr := by
  cases v <;> rfl

theorem sequence_length (sets : OneOrThree RoundKeySet) (c : BlockCommand) (iv : Word) (xs : List Word) :
    (c.sequence sets iv xs).length = xs.length := by
  induction xs generalizing iv with
  | nil => rfl
  | cons x xs ih => rw [BlockCommand.sequence, List.length_cons, ih, List.length_cons]

/-- With an IV both streams start from it; without one the running value is not read, whatever it is. -/
theorem sequence_decrypt_sequence_encrypt (sets : OneOrThree RoundKeySet) (v : Option Word) (d e : Word)
    (xs : List Word) :
    (decryptCommand v).sequence sets (v.getD d) ((encryptCommand v).sequence sets (v.getD e) xs) = xs := by
  cases v with
  | none =>
    rw [decryptCommand, encryptCommand, sequence_ecbenc, sequence_ecbdec, ecbSeq_decrypt_ecbSeq_encrypt]
  | some iv =>
    rw [decryptCommand, encryptCommand, sequence_cbcenc, sequence_cbcdec]
    exact cbcDecSeq_cbcEncSeq sets iv xs

/-- The accesses of one call read the sequence of its blocks, and leave the key and ERR as they were. -/
theorem performAll_messageAccesses {command : Option Word → Word} {c : BlockCommand} (v : Option Word)
    (hc : command v = encode c.instr) (msg : List Byte) {s : State} {sets : OneOrThree RoundKeySet}
    (he : s.err = .noError) (hs : s.store = some sets) :
    ∃ t, performAll (messageAccesses command v msg) s = .next t ∧
      t.returned = s.returned ++ c.sequence sets (v.getD s.iv) (blocksOf (msg.length / 8) msg) ∧
      t.store = s.store ∧ t.err = .noError := by
  rw [messageAccesses, hc]
  cases v with
  | none =>
    obtain ⟨t, ht, hret, -, hstore, herr⟩ := performAll_stream c (blocksOf (msg.length / 8) msg) he hs
    exact ⟨t, ht, hret, hstore, herr⟩
  | some iv =>
    obtain ⟨t, ht, hret, -, hstore, herr⟩ :=
      performAll_stream c (blocksOf (msg.length / 8) msg) (s := s.setIv iv) he hs
    exact ⟨t, (performAll_cons (.write 7 iv) _ (perform_write_iv iv he)).trans ht, hret, hstore, herr⟩

theorem callEncrypt_of_ok {message : HostValue} {iv : IvValue} {padding : Bool} {m : List Byte}
    {v : Option Word} {s : State} {sets : OneOrThree RoundKeySet} (hm : guardPlaintext padding message = .ok m)
    (hv : guardIv iv = .ok v) (he : s.err = .noError) (hs : s.store = some sets) :
    ∃ t, callEncrypt message iv padding s = .next (.ok (bytesOf ((encryptCommand v).sequence sets
        (v.getD s.iv) (blocksOf (m.length / 8) m))), t) ∧
      t.store = s.store ∧ t.err = .noError := by
  obtain ⟨t, ht, hret, hstore, herr⟩ := performAll_messageAccesses v (encryptWord_eq v) m he hs
  have hacc : encryptAccesses message iv padding = .ok (messageAccesses encryptWord v m) := by
    simp only [encryptAccesses, hm, hv]
  exact ⟨t, call_of_ok hacc ht hret _, hstore, herr⟩

/-- A decryption of the bytes of whole blocks. -/
theorem callDecrypt_of_blocks {cs : List Word} {iv : IvValue} (padding : Bool) {v : Option Word} {s : State}
    {sets : OneOrThree RoundKeySet} (hv : guardIv iv = .ok v) (he : s.err = .noError)
    (hs : s.store = some sets) :
    ∃ t, callDecrypt (.bytes (bytesOf cs)) iv padding s =
      .next (.ok (if padding then unpad (bytesOf ((decryptCommand v).sequence sets (v.getD s.iv) cs))
        else bytesOf ((decryptCommand v).sequence sets (v.getD s.iv) cs)), t) := by
  have hlen := bytesOf_length cs
  have hblocks : blocksOf ((bytesOf cs).length / 8) (bytesOf cs) = cs := by
    rw [hlen, Nat.mul_div_cancel_left _ (by omega), blocksOf_bytesOf]
  obtain ⟨t, ht, hret, -, -⟩ := performAll_messageAccesses v (decryptWord_eq v) (bytesOf cs) he hs
  rw [hblocks] at hret
  have hguard : guardCiphertext (.bytes (bytesOf cs)) = .ok (bytesOf cs) := if_pos (by omega)
  have hacc : decryptAccesses (.bytes (bytesOf cs)) iv = .ok (messageAccesses decryptWord v (bytesOf cs)) := by
    simp only [decryptAccesses, hguard, hv]
  exact ⟨t, call_of_ok hacc ht hret _⟩

/-- The two calls in a row, on a message that has passed its guard as `m`. -/
theorem callDecrypt_callEncrypt {message : HostValue} {iv : IvValue} {padding : Bool} {m : List Byte}
    {v : Option Word} {s : State} {sets : OneOrThree RoundKeySet} (hm : guardPlaintext padding message = .ok m)
    (hlen : m.length % 8 = 0) (hv : guardIv iv = .ok v) (he : s.err = .noError) (hs : s.store = some sets) :
    ∃ cipher t u, callEncrypt message iv padding s = .next (.ok cipher, t) ∧
      callDecrypt (.bytes cipher) iv padding t = .next (.ok (if padding then unpad m else m), u) ∧
      cipher.length = m.length := by
  obtain ⟨t, hencrypt, hstore, herr⟩ := callEncrypt_of_ok hm hv he hs
  obtain ⟨u, hdecrypt⟩ := callDecrypt_of_blocks (cs := (encryptCommand v).sequence sets (v.getD s.iv)
    (blocksOf (m.length / 8) m)) padding hv herr (hstore.trans hs)
  rw [sequence_decrypt_sequence_encrypt, bytesOf_blocksOf (by omega)] at hdecrypt
  refine ⟨_, t, u, hencrypt, hdecrypt, ?_⟩
  rw [bytesOf_length, sequence_length, blocksOf_length]
  omega

end Sys2Proof.Machine

open Sys2Proof Sys2Proof.Machine

/-- Settles O55: the guard turns the message into whole blocks, by padding or by its length, and the pad comes
off again at the end. -/
theorem wrapperRoundTrip : Obligations.WrapperRoundTrip := by
  intro s msg iv padding he hs ⟨v, hv⟩ hlen
  obtain ⟨sets, hsets⟩ := Option.ne_none_iff_exists'.mp hs
  cases padding with
  | true =>
    have hguard : guardPlaintext true (.bytes msg) = .ok (pad msg) := rfl
    have h := callDecrypt_callEncrypt hguard (pad_length_mod msg) hv he hsets
    rwa [if_pos rfl, unpad_pad] at h
  | false =>
    have hmod : msg.length % 8 = 0 := by simpa using hlen
    have hguard : guardPlaintext false (.bytes msg) = .ok msg := if_pos hmod
    exact callDecrypt_callEncrypt hguard hmod hv he hsets
end

section
/-! The host script (R54, R55): a command statement is the write of the word of its command. -/

namespace Sys2Proof.Machine

theorem perform_write_cmd_encode {i : Instr} (h : i.wf = true) (s : State) :
    perform (.write 0 (encode i)) s = exec i s :=
  hostWrite_cmd_of_decode (decode_encode h) s

theorem KeyLength.bytes_div_eight_lt (n : KeyLength) : n.bytes / 8 < 16 := by
  cases n <;> decide

theorem Reg.ofNumber_number (r : Reg) : Reg.ofNumber r.number = some r := by
  cases r <;> rfl

end Sys2Proof.Machine

open Sys2Proof Sys2Proof.Machine

/-- Settles O56: the accesses are those of the table, and each command's word is the encoder's. -/
theorem scriptStatementsRunTheCommands : Obligations.ScriptStatementsRunTheCommands := by
  refine ⟨fun s => ?_, ?_, fun v s he hd => hostWrite_of_illegal_word he hd, fun r v => ⟨rfl, rfl⟩,
    Reg.ofNumber_number, fun n => rfl, fun a b c x v => ⟨rfl, rfl, rfl, rfl, rfl, rfl, rfl, rfl, rfl⟩⟩
  · have hwrite {i : Instr} (hi : i.wf = true) := perform_write_cmd_encode hi s
    exact ⟨hwrite (i := .nop) rfl,
      fun n => hwrite (i := .ldkey (n.bytes / 8)) (decide_eq_true n.bytes_div_eight_lt),
      fun k => hwrite (i := .ldkey k.val) (decide_eq_true k.isLt),
      hwrite (i := .clrkey) rfl, hwrite (i := .ecbdec) rfl, hwrite (i := .ecbenc) rfl,
      hwrite (i := .cbcdec) rfl, hwrite (i := .cbcenc) rfl, hwrite (i := .clrerr) rfl,
      hwrite (i := .srst) rfl, fun w i hd => hostWrite_cmd_of_decode hd s⟩
  · exact ⟨rfl, rfl, rfl, rfl, fun k => rfl, rfl, rfl, rfl, rfl, rfl, rfl, rfl, fun v => rfl⟩
end
